-- ==== Sys2Proof/Word.lean ====
section
/-! DEFINITION. The widths CORE's values come in (spec/00_scope.md R7, R10; spec/30_encoding.md R70). All values
are unsigned (R10). -/

namespace Sys2Proof

/-- An 8-bit register or immediate: an SPN block or key, a Feistel half or round key (R24 to R28). -/
abbrev Byte := BitVec 8

/-- A 16-bit register or immediate: a Feistel block, or a bit sequence of up to 16 elements (R12, R32 to R34). -/
abbrev Wide := BitVec 16

/-- A 32-bit command or response word (R70). -/
abbrev Word := BitVec 32

/-- The operand area of a command word, or the data field of a response word (R70). -/
abbrev Area := BitVec 24

end Sys2Proof
end

