-- ==== Sys2Proof/Config.lean ====
section
/-! DEFINITION. The parameters of the hardware (spec/00_scope.md R7, R8, R9). The three capacities are fixed at 16 by
R8 and the encodings depend on that value. The organisation parameters of R9 are arguments of the operations they
concern and have no effect on any architectural result (R9, spec/70_reset_and_hazards.md R251).
The spec leaves no value open that a command can observe (spec/93_implementation_defined.md part 2), so there is no
free value here. -/

namespace Sys2Proof.Config

/-- FK_DEPTH: the most round keys the Feistel key table holds (R8). -/
def fkDepth : Nat := 16

/-- LFSR_WMAX: the widest LFSR state the engine holds (R8). -/
def lfsrWmax : Nat := 16

/-- CHUNK_MAX: the most keystream bits one LGEN or LENC produces (R8). -/
def chunkMax : Nat := 16

/-- SBOX_MODE (R9): the four 2-bit groups looked up at once, or one after the other. -/
inductive SboxMode where
  | parallel
  | serial
  deriving DecidableEq, Repr

/-- LFSR_SHIFT_MODE (R9): the n steps of LGEN and LENC unrolled (parallel), or iterated (serial). -/
inductive LfsrShiftMode where
  | parallel
  | serial
  deriving DecidableEq, Repr

/-- FEISTEL_ROUND_MODE as R9 lists it: the round datapath treats all 8 bits of a half at once. -/
inductive FeistelRoundMode where
  | parallel
  deriving DecidableEq, Repr

/-- FEISTEL_ROUND_MODE as R251 words it: the rounds of one cipher command unrolled, or iterated (assumption 10). -/
inductive RoundSchedule where
  | unrolled
  | iterated
  deriving DecidableEq, Repr

/-- The internal organisation of a CORE: a value for each open parameter of R9 and R251. -/
structure Organisation where
  sboxMode : SboxMode
  lfsrShiftMode : LfsrShiftMode
  feistelRoundMode : FeistelRoundMode
  roundSchedule : RoundSchedule
  deriving DecidableEq, Repr

/-- The organisation exec and step run with: this model's DESIGN CHOICE (assumption 10). No result depends on it. -/
def organisation : Organisation :=
  { sboxMode := .parallel, lfsrShiftMode := .serial, feistelRoundMode := .parallel, roundSchedule := .iterated }

end Sys2Proof.Config
end

