-- ==== Sys2Proof/Syntax.lean ====
section
/-! DEFINITION. The 34 commands of spec/30_encoding.md R75 (spec/opcode_table.json), with the operands their formats
carry (R71, R73). -/

namespace Sys2Proof

/-- A command. Operands are the fields of the command word as they stand (R73). Field values the encoding reserves
(R80) are excluded by Instr.wellFormed. -/
inductive Instr where
  /-- NOP: do nothing (R201). -/
  | nop
  /-- SLDB: load the SPN block register (R104). -/
  | sldb (v : Byte)
  /-- SLDK: load the SPN key register (R123). -/
  | sldk (v : Byte)
  /-- SLDRK: load the SPN round-key register (R105). -/
  | sldrk (v : Byte)
  /-- SKDER: derive a round key from half h of the key (R124). -/
  | skder (h : BitVec 1)
  /-- SXOR: exclusive-or the block with the round key (R106). -/
  | sxor
  /-- SSUB: substitute (R107). -/
  | ssub
  /-- SISUB: inverse substitute (R108). -/
  | sisub
  /-- SPERM: permute (R109). -/
  | sperm
  /-- SIPERM: inverse permute (R110). -/
  | siperm
  /-- SRENC: one SPN encryption round (R125). -/
  | srenc
  /-- SRDEC: one SPN decryption round (R126). -/
  | srdec
  /-- SENC: the 2-round SPN encryption (R127). -/
  | senc
  /-- SDEC: the 2-round SPN decryption (R128). -/
  | sdec
  /-- SRD: read an SPN register (R111). -/
  | srd (sel : BitVec 2)
  /-- FLDB: load the Feistel block (R147). -/
  | fldb (v : Wide)
  /-- FKCLR: empty the round-key sequence (R148). -/
  | fkclr
  /-- FKPUSH: append one round key (R149). -/
  | fkpush (v : Byte)
  /-- FF: the F function of half a and round key b (R150). -/
  | ff (a b : Byte)
  /-- FRND: one Feistel round with round key k (R151). -/
  | frnd (k : Byte)
  /-- FIRND: one inverse Feistel round with round key k (R152). -/
  | firnd (k : Byte)
  /-- FENC: Feistel encryption, default round count (R153). -/
  | fenc
  /-- FENCN: Feistel encryption, n rounds (R154). -/
  | fencn (n : BitVec 5)
  /-- FDEC: Feistel decryption, default round count (R155). -/
  | fdec
  /-- FDECN: Feistel decryption, n rounds (R156). -/
  | fdecn (n : BitVec 5)
  /-- FRD: read a Feistel register (R157). -/
  | frd (sel : BitVec 2) (idx : BitVec 4)
  /-- LLDS: load the initial state v of length w (R171). -/
  | llds (w : BitVec 5) (v : Wide)
  /-- LLDT: load the taps (R172). -/
  | lldt (v : Wide)
  /-- LSETD: set the direction (R173). -/
  | lsetd (d : BitVec 2)
  /-- LRST: restart from the initial state (R174). -/
  | lrst
  /-- LSTEP: one step (R177). -/
  | lstep
  /-- LGEN: generate n keystream bits (R178). -/
  | lgen (n : BitVec 5)
  /-- LENC: encrypt or decrypt the n bits v (LDEC is this command, R180) (R179). -/
  | lenc (n : BitVec 5) (v : Wide)
  /-- LRD: read an LFSR register (R181). -/
  | lrd (sel : BitVec 2)
  deriving DecidableEq, Repr

/-- The mnemonic of a command, as R75 and R83 write it. -/
def Instr.mnemonic : Instr → String
  | .nop => "NOP"
  | .sldb _ => "SLDB"
  | .sldk _ => "SLDK"
  | .sldrk _ => "SLDRK"
  | .skder _ => "SKDER"
  | .sxor => "SXOR"
  | .ssub => "SSUB"
  | .sisub => "SISUB"
  | .sperm => "SPERM"
  | .siperm => "SIPERM"
  | .srenc => "SRENC"
  | .srdec => "SRDEC"
  | .senc => "SENC"
  | .sdec => "SDEC"
  | .srd _ => "SRD"
  | .fldb _ => "FLDB"
  | .fkclr => "FKCLR"
  | .fkpush _ => "FKPUSH"
  | .ff _ _ => "FF"
  | .frnd _ => "FRND"
  | .firnd _ => "FIRND"
  | .fenc => "FENC"
  | .fencn _ => "FENCN"
  | .fdec => "FDEC"
  | .fdecn _ => "FDECN"
  | .frd _ _ => "FRD"
  | .llds _ _ => "LLDS"
  | .lldt _ => "LLDT"
  | .lsetd _ => "LSETD"
  | .lrst => "LRST"
  | .lstep => "LSTEP"
  | .lgen _ => "LGEN"
  | .lenc _ _ => "LENC"
  | .lrd _ => "LRD"

/-- The three engines of R1 and R20. -/
inductive Engine where
  | spn
  | feistel
  | lfsr
  deriving DecidableEq, Repr

/-- The engine a command belongs to, by the tables of spec/10_state.md R40; NOP belongs to none. -/
def Instr.engine : Instr → Option Engine
  | .nop => none
  | .sldb _ => some .spn
  | .sldk _ => some .spn
  | .sldrk _ => some .spn
  | .skder _ => some .spn
  | .sxor => some .spn
  | .ssub => some .spn
  | .sisub => some .spn
  | .sperm => some .spn
  | .siperm => some .spn
  | .srenc => some .spn
  | .srdec => some .spn
  | .senc => some .spn
  | .sdec => some .spn
  | .srd _ => some .spn
  | .fldb _ => some .feistel
  | .fkclr => some .feistel
  | .fkpush _ => some .feistel
  | .ff _ _ => some .feistel
  | .frnd _ => some .feistel
  | .firnd _ => some .feistel
  | .fenc => some .feistel
  | .fencn _ => some .feistel
  | .fdec => some .feistel
  | .fdecn _ => some .feistel
  | .frd _ _ => some .feistel
  | .llds _ _ => some .lfsr
  | .lldt _ => some .lfsr
  | .lsetd _ => some .lfsr
  | .lrst => some .lfsr
  | .lstep => some .lfsr
  | .lgen _ => some .lfsr
  | .lenc _ _ => some .lfsr
  | .lrd _ => some .lfsr

end Sys2Proof
end

