-- ==== Sys2Proof/WellFormed.lean ====
section
/-! DEFINITION. Which commands have an encoding: the extra constraints of spec/30_encoding.md R75 and R80. Every other
operand value is a legal encoding (R80), whether or not the command then succeeds. -/

namespace Sys2Proof

/-- The reserved field values of R80: SRD sel 3; FRD sel 3, or idx not 0 with sel 0 or 1; LGEN and LENC n above 16. -/
def Instr.wellFormed : Instr → Bool
  | .nop => true
  | .sldb _ => true
  | .sldk _ => true
  | .sldrk _ => true
  | .skder _ => true
  | .sxor => true
  | .ssub => true
  | .sisub => true
  | .sperm => true
  | .siperm => true
  | .srenc => true
  | .srdec => true
  | .senc => true
  | .sdec => true
  | .srd sel => sel != 3#2
  | .fldb _ => true
  | .fkclr => true
  | .fkpush _ => true
  | .ff _ _ => true
  | .frnd _ => true
  | .firnd _ => true
  | .fenc => true
  | .fencn _ => true
  | .fdec => true
  | .fdecn _ => true
  | .frd sel idx => sel != 3#2 && (sel == 2#2 || idx == 0#4)
  | .llds _ _ => true
  | .lldt _ => true
  | .lsetd _ => true
  | .lrst => true
  | .lstep => true
  | .lgen n => decide (n.toNat ≤ Config.chunkMax)
  | .lenc n _ => decide (n.toNat ≤ Config.chunkMax)
  | .lrd _ => true

end Sys2Proof
end

