-- ==== Sys2Proof/Decode.lean ====
section
/-! DEFINITION. Decoding a command word, and encoding a command (spec/30_encoding.md R70, R71, R74, R75, R78 to R80).
A command word is one 32-bit value presented whole; no order of its bytes is defined (spec/20_memory.md R53). -/

namespace Sys2Proof

/-- The ten formats of the operand area (R71). -/
inductive Format where
  | z | b | bb | h | s1 | s2 | n | c | ch | x
  deriving DecidableEq, Repr

/-- Why a word is no command, by the step of R74 that rejects it. All three raise IllegalCommand (R203), so the host
cannot tell them apart. -/
inductive DecodeError where
  /-- The opcode is not in the map (R78). -/
  | reservedOpcode
  /-- A must-be-zero bit of the format is 1 (R79). -/
  | mbzViolation
  /-- A field holds a reserved value (R80). -/
  | reservedField
  deriving DecidableEq, Repr

/-- The must-be-zero bits of a format (R71, its last column). -/
def Format.mbz : Format → Area
  | .z => 0xFFFFFF#24
  | .b => 0xFFFF00#24
  | .bb => 0xFF0000#24
  | .h => 0xFF0000#24
  | .s1 => 0xFFFFFE#24
  | .s2 => 0xFFFFFC#24
  | .n => 0xFFFFE0#24
  | .c => 0xE0FFFF#24
  | .ch => 0xE00000#24
  | .x => 0xFFFCF0#24

/-- One row of the opcode map (R75): opcode, format, and the command its fields make. -/
structure OpcodeRow where
  op : Byte
  format : Format
  read : Area → Instr

/-- `cmd[31:24]` (R70). -/
def opcodeOf (w : Word) : Byte := w.extractLsb' 24 8

/-- `cmd[23:0]` (R70). -/
def areaOf (w : Word) : Area := w.extractLsb' 0 24

/-- R75: opcode 0x00. -/
def systemRows : List OpcodeRow :=
  [
   ⟨0x00#8, .z, fun _ => .nop⟩
  ]

/-- R75: the SPN engine, opcodes 0x10 to 0x1D. -/
def spnRows : List OpcodeRow :=
  [
   ⟨0x10#8, .b, fun a => .sldb (a.extractLsb' 0 8)⟩,
   ⟨0x11#8, .b, fun a => .sldk (a.extractLsb' 0 8)⟩,
   ⟨0x12#8, .b, fun a => .sldrk (a.extractLsb' 0 8)⟩,
   ⟨0x13#8, .s1, fun a => .skder (a.extractLsb' 0 1)⟩,
   ⟨0x14#8, .z, fun _ => .sxor⟩,
   ⟨0x15#8, .z, fun _ => .ssub⟩,
   ⟨0x16#8, .z, fun _ => .sisub⟩,
   ⟨0x17#8, .z, fun _ => .sperm⟩,
   ⟨0x18#8, .z, fun _ => .siperm⟩,
   ⟨0x19#8, .z, fun _ => .srenc⟩,
   ⟨0x1A#8, .z, fun _ => .srdec⟩,
   ⟨0x1B#8, .z, fun _ => .senc⟩,
   ⟨0x1C#8, .z, fun _ => .sdec⟩,
   ⟨0x1D#8, .s2, fun a => .srd (a.extractLsb' 0 2)⟩
  ]

/-- R75: the Feistel engine, opcodes 0x20 to 0x2A. -/
def feistelRows : List OpcodeRow :=
  [
   ⟨0x20#8, .h, fun a => .fldb (a.extractLsb' 0 16)⟩,
   ⟨0x21#8, .z, fun _ => .fkclr⟩,
   ⟨0x22#8, .b, fun a => .fkpush (a.extractLsb' 0 8)⟩,
   ⟨0x23#8, .bb, fun a => .ff (a.extractLsb' 8 8) (a.extractLsb' 0 8)⟩,
   ⟨0x24#8, .b, fun a => .frnd (a.extractLsb' 0 8)⟩,
   ⟨0x25#8, .b, fun a => .firnd (a.extractLsb' 0 8)⟩,
   ⟨0x26#8, .z, fun _ => .fenc⟩,
   ⟨0x27#8, .n, fun a => .fencn (a.extractLsb' 0 5)⟩,
   ⟨0x28#8, .z, fun _ => .fdec⟩,
   ⟨0x29#8, .n, fun a => .fdecn (a.extractLsb' 0 5)⟩,
   ⟨0x2A#8, .x, fun a => .frd (a.extractLsb' 8 2) (a.extractLsb' 0 4)⟩
  ]

/-- R75: the LFSR engine, opcodes 0x30 to 0x37. -/
def lfsrRows : List OpcodeRow :=
  [
   ⟨0x30#8, .ch, fun a => .llds (a.extractLsb' 16 5) (a.extractLsb' 0 16)⟩,
   ⟨0x31#8, .h, fun a => .lldt (a.extractLsb' 0 16)⟩,
   ⟨0x32#8, .s2, fun a => .lsetd (a.extractLsb' 0 2)⟩,
   ⟨0x33#8, .z, fun _ => .lrst⟩,
   ⟨0x34#8, .z, fun _ => .lstep⟩,
   ⟨0x35#8, .c, fun a => .lgen (a.extractLsb' 16 5)⟩,
   ⟨0x36#8, .ch, fun a => .lenc (a.extractLsb' 16 5) (a.extractLsb' 0 16)⟩,
   ⟨0x37#8, .s2, fun a => .lrd (a.extractLsb' 0 2)⟩
  ]

/-- The complete opcode map (R75), 34 rows. -/
def opcodeRows : List OpcodeRow := systemRows ++ spnRows ++ feistelRows ++ lfsrRows

/-- The row of an opcode, none if it is reserved (R78). -/
def rowOf (op : Byte) : Option OpcodeRow := opcodeRows.find? (fun r => r.op == op)

/-- The command a row reads from an operand area: steps (2), (3) and (4) of R74. -/
def readRow (r : OpcodeRow) (a : Area) : Except DecodeError Instr :=
  if r.format.mbz &&& a = 0#24 then
    if (r.read a).wellFormed then .ok (r.read a) else .error .reservedField
  else .error .mbzViolation

/-- Decoding (R74): total on all 2^32 words, depending on the word only. -/
def decode (w : Word) : Except DecodeError Instr :=
  match rowOf (opcodeOf w) with
  | none => .error .reservedOpcode
  | some r => readRow r (areaOf w)

/-- The opcode of a command (R75). -/
def opcode : Instr → Byte
  | .nop => 0x00#8
  | .sldb _ => 0x10#8
  | .sldk _ => 0x11#8
  | .sldrk _ => 0x12#8
  | .skder _ => 0x13#8
  | .sxor => 0x14#8
  | .ssub => 0x15#8
  | .sisub => 0x16#8
  | .sperm => 0x17#8
  | .siperm => 0x18#8
  | .srenc => 0x19#8
  | .srdec => 0x1A#8
  | .senc => 0x1B#8
  | .sdec => 0x1C#8
  | .srd _ => 0x1D#8
  | .fldb _ => 0x20#8
  | .fkclr => 0x21#8
  | .fkpush _ => 0x22#8
  | .ff _ _ => 0x23#8
  | .frnd _ => 0x24#8
  | .firnd _ => 0x25#8
  | .fenc => 0x26#8
  | .fencn _ => 0x27#8
  | .fdec => 0x28#8
  | .fdecn _ => 0x29#8
  | .frd _ _ => 0x2A#8
  | .llds _ _ => 0x30#8
  | .lldt _ => 0x31#8
  | .lsetd _ => 0x32#8
  | .lrst => 0x33#8
  | .lstep => 0x34#8
  | .lgen _ => 0x35#8
  | .lenc _ _ => 0x36#8
  | .lrd _ => 0x37#8

/-- The operand area of a command: its fields where R71 puts them, every other bit 0. -/
def operandArea : Instr → Area
  | .nop => 0#24
  | .sldb v => 0#16 ++ v
  | .sldk v => 0#16 ++ v
  | .sldrk v => 0#16 ++ v
  | .skder h => 0#23 ++ h
  | .sxor => 0#24
  | .ssub => 0#24
  | .sisub => 0#24
  | .sperm => 0#24
  | .siperm => 0#24
  | .srenc => 0#24
  | .srdec => 0#24
  | .senc => 0#24
  | .sdec => 0#24
  | .srd sel => 0#22 ++ sel
  | .fldb v => 0#8 ++ v
  | .fkclr => 0#24
  | .fkpush v => 0#16 ++ v
  | .ff a b => 0#8 ++ a ++ b
  | .frnd k => 0#16 ++ k
  | .firnd k => 0#16 ++ k
  | .fenc => 0#24
  | .fencn n => 0#19 ++ n
  | .fdec => 0#24
  | .fdecn n => 0#19 ++ n
  | .frd sel idx => 0#14 ++ sel ++ 0#4 ++ idx
  | .llds w v => 0#3 ++ w ++ v
  | .lldt v => 0#8 ++ v
  | .lsetd d => 0#22 ++ d
  | .lrst => 0#24
  | .lstep => 0#24
  | .lgen n => 0#3 ++ n ++ 0#16
  | .lenc n v => 0#3 ++ n ++ v
  | .lrd sel => 0#22 ++ sel

/-- The command word of a command (R70, R71, R75). -/
def encode (i : Instr) : Word := opcode i ++ operandArea i

/-- The 32-bit word spec/opcode_table.json's numbering gives: one word, bits at and above nbits zero. -/
def tableWord (nbits w : Nat) : Word := BitVec.ofNat 32 (w % 2 ^ nbits)

/-- What the decoder reads from a word given by the table's bit numbering; none where it refuses. -/
def decodeTableWord (nbits w : Nat) : Option Instr := (decode (tableWord nbits w)).toOption

end Sys2Proof
end

