-- ==== Sys2Proof/Machine/State.lean ====
section
/-! DEFINITION. The state of CORE (spec/10_state.md R20, R24 to R34), its command and response port
(spec/00_scope.md R15, spec/60_exceptions.md R230), its reset state (R39, R241), and the two types of reasons a step
can stop. CORE has no program counter, no flags, no memory and no error record (R22, R23, R50, R221). -/

namespace Sys2Proof.Machine

/-- The status of a response: the six codes of R211, each named. -/
inductive Status where
  | ok
  | invalidInput
  | invalidArgument
  | indexOutOfRange
  | illegalCommand
  | capacityExceeded
  deriving DecidableEq, Repr

/-- A response: its status and its 24 bits of data (R70, R72). -/
structure Rsp where
  status : Status
  data : Area
  deriving DecidableEq, Repr

/-- What the host can send (R230): one command word, or the reset event (R240). -/
inductive HostInput where
  | command (w : Word)
  | reset
  deriving DecidableEq, Repr

/-- The registers of the SPN engine: SB (R24), SK (R25), SRK (R26). -/
structure Spn where
  sb : Byte
  sk : Byte
  srk : Byte
  deriving DecidableEq, Repr

/-- The registers of the Feistel engine: FL and FR (R27), the key table FK (R28), its count FKN (R29). -/
structure Feistel where
  fl : Byte
  fr : Byte
  fk : Vector Byte 16
  fkn : BitVec 5
  deriving DecidableEq, Repr

/-- The registers of the LFSR engine: LW (R30), LDIR (R31), LT (R32), LSEED (R33), LS (R34). -/
structure Lfsr where
  lw : BitVec 5
  ldir : BitVec 2
  lt : Wide
  lseed : Wide
  ls : Wide
  deriving DecidableEq, Repr

/-- The state: the three engines' registers (R20), and the port. The port's two lists are the model's own and no
register of CORE: what the host has presented and CORE has not yet taken (next one first), and every response
returned (oldest first). No command reads either (assumption 1). -/
structure State where
  spn : Spn
  feistel : Feistel
  lfsr : Lfsr
  pending : List HostInput
  responses : List Rsp
  deriving DecidableEq, Repr

/-- The SPN registers after reset (R39). -/
def Spn.reset : Spn := { sb := 0x00#8, sk := 0x00#8, srk := 0x00#8 }

/-- The Feistel registers after reset (R39). The spec gives FK no reset contents (R39, R241); zeros are this model's
DESIGN CHOICE (assumption 4), and no command can observe them. -/
def Feistel.reset : Feistel :=
  { fl := 0x00#8, fr := 0x00#8, fk := Vector.replicate 16 0x00#8, fkn := 0#5 }

/-- The LFSR registers after reset (R39). -/
def Lfsr.reset : Lfsr := { lw := 0#5, ldir := 0#2, lt := 0x0000#16, lseed := 0x0000#16, ls := 0x0000#16 }

/-- The machine right after reset (R39, R241, R242): waiting for the first command, nothing presented and nothing
answered yet. -/
def State.reset : State :=
  { spn := Spn.reset, feistel := Feistel.reset, lfsr := Lfsr.reset, pending := [], responses := [] }

/-- Reasons the machine stops. There are none: every state and every one of the 2^32 command words has a successor
and a response (R245), and a failing command is a response with a non-zero status, after which the next command is
accepted normally (R203, R216, R223). Having no constructor is safe: it claims no behaviour. -/
inductive Fault where
  deriving DecidableEq, Repr

/-- Reasons an instruction has no meaning in this model. -/
inductive Refusal where
  /-- Raised by an arm of exec whose instruction has no meaning yet. No arm raises it now. Safe: the model stops
  where the hardware goes on. -/
  | notModelled (mnemonic : String)
  deriving DecidableEq, Repr

end Sys2Proof.Machine
end

