-- ==== Sys2Proof/Machine/Operands.lean ====
section
/-! DEFINITION. Operand and data forms: how values fill the response data field, how bit sequences sit in registers,
the key table's entries (spec/00_scope.md R11 to R13; spec/20_memory.md R51, R61; spec/43_lfsr.md R182). -/

namespace Sys2Proof.Machine

/-- `zext_24` (R10, R82): a value in the low bits of the response data. -/
def zext24 {n : Nat} (v : BitVec n) : Area := v.setWidth 24

/-- `a ‖ b` of two halves (R10, R27): the first is the high byte. -/
def joinHalves (l r : Byte) : Wide := l ++ r

/-- The first half of an 8-bit sequence, elements 0 to 3: bits 7..4 (R24, R25). -/
def firstHalf (v : Byte) : BitVec 4 := v.extractLsb' 4 4

/-- The second half of an 8-bit sequence, elements 4 to 7: bits 3..0 (R24, R25). -/
def secondHalf (v : Byte) : BitVec 4 := v.extractLsb' 0 4

/-- The high byte of a 16-bit block, its left half (R27, R73). -/
def leftHalf (v : Wide) : Byte := v.extractLsb' 8 8

/-- The low byte of a 16-bit block, its right half (R27, R73). -/
def rightHalf (v : Wide) : Byte := v.extractLsb' 0 8

/-- `MASK(w)` (R182): the top w bits of 16, the places of a sequence of length w (R12). For w above 16, which no
reachable state has, all 16 bits (assumption 7). -/
def mask (w : Nat) : Wide := 0xFFFF#16 <<< (16 - w)

/-- The value has a 1 at a sequence index at or beyond n (R171, R179: `v & ~MASK(n) & 0xFFFF` is not 0). -/
def strayBits (n : Nat) (v : Wide) : Bool := v &&& ~~~mask n != 0#16

/-- The first 16 elements of a sequence in a 16-bit field, left-aligned, element 0 in bit 15, unused bits 0 (R12). -/
def packBits : List Bool → Wide
  | [] => 0#16
  | b :: bs => (if b then 0x8000#16 else 0x0000#16) ||| (packBits bs >>> 1)

/-- The first n elements of the sequence a 16-bit field holds: element i is bit 15 - i (R12). -/
def unpackBits (n : Nat) (v : Wide) : List Bool := (List.range n).map v.getMsbD

/-- The XOR of all 16 bits (R13, R182). -/
def parity (v : Wide) : Bool := (List.range 16).foldl (fun acc i => acc ^^ v.getLsbD i) false

/-- Entry i of the key table. Past its sixteen entries, which no command reads in a reachable state, 0
(assumption 6). -/
def keyAt (f : Feistel) (i : Nat) : Byte := f.fk[i]?.getD 0x00#8

/-- The first n round keys, index 0 first (R28, R144). -/
def keysBelow (f : Feistel) (n : Nat) : List Byte := (List.range n).map (keyAt f)

end Sys2Proof.Machine
end

