-- ==== Sys2Proof/Machine/Flags.lean ====
section
/-! DEFINITION. CORE has no flags (spec/10_state.md R23). What a command leaves instead is the status of its
response: here its codes, the response word, and the checks that several commands share
(spec/60_exceptions.md R211, R217; spec/43_lfsr.md R171, R176, R179). -/

namespace Sys2Proof.Machine

/-- The numeric code of a status (R211). -/
def Status.code : Status → Byte
  | .ok => 0x00#8
  | .invalidInput => 0x01#8
  | .invalidArgument => 0x02#8
  | .indexOutOfRange => 0x03#8
  | .illegalCommand => 0x04#8
  | .capacityExceeded => 0x05#8

/-- The response as the 32-bit word the host receives: status in bits 31..24, data in bits 23..0 (R70). -/
def Rsp.toWord (r : Rsp) : Word := r.status.code ++ r.data

/-- The shift direction (R31). -/
inductive Direction where
  | right
  | left
  deriving DecidableEq, Repr

/-- The direction a 2-bit code names: 0 right, 1 left, 2 and 3 none (R31, R173). -/
def directionOf (d : BitVec 2) : Option Direction :=
  if d = 0#2 then some .right else if d = 1#2 then some .left else none

/-- The checks every stepping command makes, in order, for n steps (R176): no state loaded; a selected tap at or
beyond LW; a step asked for with no direction. The first that fails gives the status (R217). -/
def steppingError (l : Lfsr) (n : Nat) : Option Status :=
  if l.lw = 0#5 then some .invalidInput
  else if strayBits l.lw.toNat l.lt then some .indexOutOfRange
  else if 1 ≤ n ∧ directionOf l.ldir = none then some .invalidArgument
  else none

/-- The checks of LLDS, in order (R171, R217). -/
def seedError (w : BitVec 5) (v : Wide) : Option Status :=
  if Config.lfsrWmax < w.toNat then some .capacityExceeded
  else if w = 0#5 then some .invalidInput
  else if strayBits w.toNat v then some .invalidInput
  else none

/-- The checks of LENC, in order: its data first, then the common ones (R179, R217). -/
def streamError (l : Lfsr) (n : Nat) (v : Wide) : Option Status :=
  if strayBits n v then some .invalidInput else steppingError l n

/-- The check of FENCN and FDECN: the round count against the number of keys (R154, R156, 90_conflicts C1). -/
def roundCountError (f : Feistel) (n : Nat) : Option Status :=
  if f.fkn.toNat < n then some .invalidArgument else none

end Sys2Proof.Machine
end

