-- ==== Sys2Proof/Machine/Ops.lean ====
section
/-! DEFINITION. The named operations the meanings are built from: register writes, answering, raising an error, taking
the next host input, the reset event. -/

namespace Sys2Proof.Machine

open Host (Outcome)

/-- Write SB. -/
def State.setSb (s : State) (v : Byte) : State := { s with spn := { s.spn with sb := v } }

/-- Write SK. -/
def State.setSk (s : State) (v : Byte) : State := { s with spn := { s.spn with sk := v } }

/-- Write SRK. -/
def State.setSrk (s : State) (v : Byte) : State := { s with spn := { s.spn with srk := v } }

/-- Write the Feistel block, FL and FR together (R27). -/
def State.setBlock (s : State) (b : Byte × Byte) : State :=
  { s with feistel := { s.feistel with fl := b.1, fr := b.2 } }

/-- Empty the key sequence: FKN is 0 and the entries stay (R148, D35). -/
def State.clearKeys (s : State) : State := { s with feistel := { s.feistel with fkn := 0#5 } }

/-- Append a key: write FK[FKN], then add 1 to FKN (R28, R149). -/
def State.pushKey (s : State) (v : Byte) : State :=
  { s with feistel := { s.feistel with
      fk := s.feistel.fk.setIfInBounds s.feistel.fkn.toNat v
      fkn := s.feistel.fkn + 1#5 } }

/-- Load a state of length w: LW, LSEED and LS (R171). -/
def State.loadSeed (s : State) (w : BitVec 5) (v : Wide) : State :=
  { s with lfsr := { s.lfsr with lw := w, lseed := v, ls := v } }

/-- Write LT. -/
def State.setTaps (s : State) (v : Wide) : State := { s with lfsr := { s.lfsr with lt := v } }

/-- Write LDIR. -/
def State.setDirection (s : State) (d : BitVec 2) : State := { s with lfsr := { s.lfsr with ldir := d } }

/-- Write LS. -/
def State.setLs (s : State) (v : Wide) : State := { s with lfsr := { s.lfsr with ls := v } }

/-- Return a response to the host: the next one of the list (R15). -/
def State.respond (s : State) (r : Rsp) : State := { s with responses := s.responses ++ [r] }

/-- Complete a command: status Ok and the given data (R14, R72). -/
def reply {φ ρ : Type} (d : Area) (s : State) : Outcome State φ ρ := .next (s.respond ⟨.ok, d⟩)

/-- `raise` (R14, R215): taking an exception. No register is written, the response is the error's status with data 0,
and the next command is accepted normally (R216). Nothing is saved and nothing returns from it: CORE has no handler
and no return-from-trap (R215, R216, R221). -/
def raise {φ ρ : Type} (e : Status) (s : State) : Outcome State φ ρ := .next (s.respond ⟨e, 0#24⟩)

/-- Raise the error a check found, or else go on. Checks come before the first write (R215). -/
def guarded {φ ρ : Type} (e : Option Status) (s : State) (k : Outcome State φ ρ) : Outcome State φ ρ :=
  match e with
  | some e => raise e s
  | none => k

/-- Complete with SB in the data, what every SPN command but SRD returns (R82). -/
def replySb {φ ρ : Type} (s : State) : Outcome State φ ρ := reply (zext24 s.spn.sb) s

/-- Complete with FL ‖ FR in the data, what every Feistel command but FF and FRD returns (R82). -/
def replyBlock {φ ρ : Type} (s : State) : Outcome State φ ρ :=
  reply (zext24 (joinHalves s.feistel.fl s.feistel.fr)) s

/-- Complete with LS in the data, what LLDS, LLDT, LSETD and LRST return (R82). -/
def replyLs {φ ρ : Type} (s : State) : Outcome State φ ρ := reply (zext24 s.lfsr.ls) s

/-- The next host input and the state with it taken from the port; none when nothing is pending. -/
def takeInput (s : State) : Option (HostInput × State) :=
  match s.pending with
  | [] => none
  | x :: rest => some (x, { s with pending := rest })

/-- The reset event (R240, R241): every register takes its reset value; the event has no response (R230). What the
host has presented but CORE has not taken, and what CORE has answered, are the host's (assumption 5). -/
def resetEvent {φ ρ : Type} (s : State) : Outcome State φ ρ :=
  .next { s with spn := Spn.reset, feistel := Feistel.reset, lfsr := Lfsr.reset }

/-- Nothing is pending: CORE holds its registers (R229, assumption 3). -/
def idle {φ ρ : Type} (s : State) : Outcome State φ ρ := .next s

/-- The host presents a command word ahead of what it has presented before. -/
def State.present (s : State) (w : Word) : State := { s with pending := .command w :: s.pending }

end Sys2Proof.Machine
end

