-- ==== Sys2Proof/Machine/FeistelFunctions.lean ====
section
/-! DEFINITION. The functions of the Feistel engine (spec/42_feistel.md R140 to R146). A block is the pair of its left
and right halves. -/

namespace Sys2Proof.Machine

/-- `rotl8` (R13): one place left, the top bit wraps to the bottom. -/
def rotl8 (x : Byte) : Byte := (x <<< 1) ||| (x >>> 7)

/-- `F` (R141): XOR first, then the rotate. -/
def fFunction (h k : Byte) : Byte := rotl8 (h ^^^ k)

/-- `feistel_round` (R142). -/
def feistelRound (b : Byte × Byte) (k : Byte) : Byte × Byte := (b.2, b.1 ^^^ fFunction b.2 k)

/-- `feistel_inv_round` (R143). -/
def feistelInvRound (b : Byte × Byte) (k : Byte) : Byte × Byte := (b.2 ^^^ fFunction b.1 k, b.1)

/-- `feistel_encrypt_n` (R144) over the keys the rounds use, index 0 first; no swap after the last round. -/
def feistelEncrypt (b : Byte × Byte) (keys : List Byte) : Byte × Byte := keys.foldl feistelRound b

/-- `feistel_decrypt_n` (R145): inverse rounds over the same keys from the last to the first (90_conflicts C2). -/
def feistelDecrypt (b : Byte × Byte) (keys : List Byte) : Byte × Byte := keys.reverse.foldl feistelInvRound b

/-- `feistel_encrypt_n(B, K, n)` with the key list and the round count apart: the first n keys are used (R144). -/
def feistelEncryptN (keys : List Byte) (n : Nat) (b : Byte × Byte) : Byte × Byte := feistelEncrypt b (keys.take n)

/-- `feistel_decrypt_n(B, K, n)`: the keys K[n-1] down to K[0], those the encryption used (R145). -/
def feistelDecryptN (keys : List Byte) (n : Nat) (b : Byte × Byte) : Byte × Byte := feistelDecrypt b (keys.take n)

/-- The block register pair FL, FR (R27). -/
def blockOf (f : Feistel) : Byte × Byte := (f.fl, f.fr)

end Sys2Proof.Machine
end

