-- ==== Sys2Proof/Machine/LfsrFunctions.lean ====
section
/-! DEFINITION. The step of the LFSR on its registers and its iteration (spec/43_lfsr.md R182, R183). The step on bit
sequences the registers stand for (R175) is in Sys2Proof/Safety.lean. -/

namespace Sys2Proof.Machine

/-- A 16-bit value with the given bit at place k and 0 elsewhere. -/
def bitAt (b : Bool) (k : Nat) : Wide := if b then 1#16 <<< k else 0#16

/-- The feedback bit: the XOR of the state bits at the selected taps (R175, R182); 0 for no taps (R13). -/
def feedback (lt ls : Wide) : Bool := parity (ls &&& lt)

/-- `lfsr_step` on the register layout (R182), for a state of length w: the output bit and the new LS. -/
def lfsrStep (w : Nat) (lt : Wide) (d : Direction) (ls : Wide) : Bool × Wide :=
  match d with
  | .right => (ls.getLsbD (16 - w), ((ls >>> 1) ||| bitAt (feedback lt ls) 15) &&& mask w)
  | .left => (ls.getLsbD 15, ((ls <<< 1) &&& mask w) ||| bitAt (feedback lt ls) (16 - w))

/-- `lfsr_run` (R183): n steps, each from the state the one before left, with the output bits in order. -/
def lfsrRun (w : Nat) (lt : Wide) (d : Direction) : Nat → Wide → List Bool × Wide
  | 0, ls => ([], ls)
  | n + 1, ls =>
    let first := lfsrStep w lt d ls
    let rest := lfsrRun w lt d n first.2
    (first.1 :: rest.1, rest.2)

end Sys2Proof.Machine
end

