-- ==== Sys2Proof/Machine/SpnFunctions.lean ====
section
/-! DEFINITION. The functions of the SPN engine (spec/40_spn_primitives.md R100 to R103; spec/41_spn_cipher.md R120 to
R122). -/

namespace Sys2Proof.Machine

/-- The direct S-box `S` on one 2-bit group (R100). -/
def sbox (g : BitVec 2) : BitVec 2 :=
  match g with
  | 0b00#2 => 0b10#2
  | 0b01#2 => 0b00#2
  | 0b10#2 => 0b11#2
  | 0b11#2 => 0b01#2

/-- The inverse S-box `S'` (R101). -/
def invSbox (g : BitVec 2) : BitVec 2 :=
  match g with
  | 0b00#2 => 0b01#2
  | 0b01#2 => 0b11#2
  | 0b10#2 => 0b00#2
  | 0b11#2 => 0b10#2

/-- Apply a 2-bit table to the four groups of a block (R100, R115). -/
def mapGroups (t : BitVec 2 → BitVec 2) (x : Byte) : Byte :=
  t (x.extractLsb' 6 2) ++ t (x.extractLsb' 4 2) ++ t (x.extractLsb' 2 2) ++ t (x.extractLsb' 0 2)

/-- `substitute` (R100). invSubstitute undoes it, and it undoes invSubstitute (R112). -/
def substitute (x : Byte) : Byte := mapGroups sbox x

/-- `inv_substitute` (R101, R112). -/
def invSubstitute (x : Byte) : Byte := mapGroups invSbox x

/-- One half re-ordered by a position mapping: output position i takes the input bit at the mapping's i-th entry,
position 0 first and most significant (R102). -/
def permuteHalf (m0 m1 m2 m3 : Nat) (v : BitVec 4) : BitVec 4 :=
  BitVec.ofBool (v.getMsbD m0) ++ BitVec.ofBool (v.getMsbD m1) ++ BitVec.ofBool (v.getMsbD m2)
    ++ BitVec.ofBool (v.getMsbD m3)

/-- `permute`: the mapping [2,0,1,3] within each half (R102). invPermute undoes it, and it undoes invPermute (R112). -/
def permute (x : Byte) : Byte := permuteHalf 2 0 1 3 (firstHalf x) ++ permuteHalf 2 0 1 3 (secondHalf x)

/-- `inv_permute`: the mapping [1,2,0,3] within each half (R103, R112). -/
def invPermute (x : Byte) : Byte := permuteHalf 1 2 0 3 (firstHalf x) ++ permuteHalf 1 2 0 3 (secondHalf x)

/-- `round_encrypt` (R120). -/
def roundEncrypt (b k : Byte) : Byte := permute (substitute (b ^^^ k))

/-- `round_decrypt` (R121). -/
def roundDecrypt (b k : Byte) : Byte := invSubstitute (invPermute b) ^^^ k

/-- `k1`: the first half of the key, written twice (R122). -/
def key1 (k : Byte) : Byte := firstHalf k ++ firstHalf k

/-- `k2`: the second half of the key, written twice (R122). -/
def key2 (k : Byte) : Byte := secondHalf k ++ secondHalf k

/-- `spn_encrypt` (R122). -/
def spnEncrypt (p k : Byte) : Byte := roundEncrypt (roundEncrypt p (key1 k)) (key2 k)

/-- `spn_decrypt` (R122). -/
def spnDecrypt (c k : Byte) : Byte := roundDecrypt (roundDecrypt c (key2 k)) (key1 k)

end Sys2Proof.Machine
end

