-- ==== Sys2Proof/Machine/Organisation.lean ====
section
/-! DEFINITION. The operations whose internal organisation spec/00_scope.md R9 leaves open, with the parameter an argument
(spec/70_reset_and_hazards.md R251, assumption 10). The commands are built from these. -/

namespace Sys2Proof.Machine

open Sys2Proof.Config (Organisation SboxMode LfsrShiftMode FeistelRoundMode RoundSchedule)

/-- One lookup of the serial substitution engine: group g replaced, the other groups as they were. -/
def substituteGroup (t : BitVec 2 → BitVec 2) (x : Byte) (g : Nat) : Byte :=
  (x &&& ~~~(3#8 <<< (6 - 2 * g))) ||| ((t (x.extractLsb' (6 - 2 * g) 2)).setWidth 8 <<< (6 - 2 * g))

/-- Substitution with a 2-bit table: the four groups at once, or one after the other (SBOX_MODE). -/
def substituteBy (m : SboxMode) (t : BitVec 2 → BitVec 2) (x : Byte) : Byte :=
  match m with
  | .parallel => mapGroups t x
  | .serial => [0, 1, 2, 3].foldl (substituteGroup t) x

/-- `substitute` (R100) as an organisation computes it. -/
def substituteIn (o : Organisation) (x : Byte) : Byte := substituteBy o.sboxMode sbox x

/-- `inv_substitute` (R101) as an organisation computes it. -/
def invSubstituteIn (o : Organisation) (x : Byte) : Byte := substituteBy o.sboxMode invSbox x

/-- `round_encrypt` (R120) as an organisation computes it. -/
def roundEncryptIn (o : Organisation) (b k : Byte) : Byte := permute (substituteIn o (b ^^^ k))

/-- `round_decrypt` (R121) as an organisation computes it. -/
def roundDecryptIn (o : Organisation) (b k : Byte) : Byte := invSubstituteIn o (invPermute b) ^^^ k

/-- `spn_encrypt` (R122) as an organisation computes it. -/
def spnEncryptIn (o : Organisation) (p k : Byte) : Byte := roundEncryptIn o (roundEncryptIn o p (key1 k)) (key2 k)

/-- `spn_decrypt` (R122) as an organisation computes it. -/
def spnDecryptIn (o : Organisation) (c k : Byte) : Byte := roundDecryptIn o (roundDecryptIn o c (key2 k)) (key1 k)

/-- `feistel_round` (R142): the round datapath of FEISTEL_ROUND_MODE, all 8 bits of a half at once (R9). -/
def feistelRoundBy (m : FeistelRoundMode) (b : Byte × Byte) (k : Byte) : Byte × Byte :=
  match m with
  | .parallel => feistelRound b k

/-- `feistel_inv_round` (R143) on the same datapath. -/
def feistelInvRoundBy (m : FeistelRoundMode) (b : Byte × Byte) (k : Byte) : Byte × Byte :=
  match m with
  | .parallel => feistelInvRound b k

/-- Stage j of the unrolled rounds: a round with the j-th key, or, past the last key, the halves passed through. -/
def roundStage (round : Byte × Byte → Byte → Byte × Byte) (keys : List Byte) (b : Byte × Byte) (j : Nat) :
    Byte × Byte :=
  match keys[j]? with
  | some k => round b k
  | none => b

/-- Rounds over a list of keys, iterated or unrolled into FK_DEPTH stages (R251). -/
def roundsBy (m : RoundSchedule) (round : Byte × Byte → Byte → Byte × Byte) (b : Byte × Byte) (keys : List Byte) :
    Byte × Byte :=
  match m with
  | .iterated => keys.foldl round b
  | .unrolled => (List.range Config.fkDepth).foldl (roundStage round keys) b

/-- `feistel_encrypt_n` (R144) as an organisation computes it. -/
def feistelEncryptIn (o : Organisation) (b : Byte × Byte) (keys : List Byte) : Byte × Byte :=
  roundsBy o.roundSchedule (feistelRoundBy o.feistelRoundMode) b keys

/-- `feistel_decrypt_n` (R145) as an organisation computes it. -/
def feistelDecryptIn (o : Organisation) (b : Byte × Byte) (keys : List Byte) : Byte × Byte :=
  roundsBy o.roundSchedule (feistelInvRoundBy o.feistelRoundMode) b keys.reverse

/-- Stage j of the unrolled shift engine: one step if the command asks for more than j, else the values pass through.
The pair holds the output bits so far and LS. -/
def unrolledStage (w : Nat) (lt : Wide) (d : Direction) (n : Nat) (acc : Wide × Wide) (j : Nat) : Wide × Wide :=
  if j < n then
    (acc.1 ||| bitAt (lfsrStep w lt d acc.2).1 (15 - j), (lfsrStep w lt d acc.2).2)
  else acc

/-- n steps, iterated or unrolled into CHUNK_MAX stages (LFSR_SHIFT_MODE): the left-aligned output bits and LS. -/
def lfsrRunBy (m : LfsrShiftMode) (w : Nat) (lt : Wide) (d : Direction) (n : Nat) (ls : Wide) : Wide × Wide :=
  match m with
  | .serial => (packBits (lfsrRun w lt d n ls).1, (lfsrRun w lt d n ls).2)
  | .parallel => (List.range Config.chunkMax).foldl (unrolledStage w lt d n) (0#16, ls)

/-- n steps of the LFSR registers: the left-aligned output bits and LS. Without a direction only no step can be asked
for (check 3 of R176). -/
def lfsrAdvanceBy (m : LfsrShiftMode) (l : Lfsr) (n : Nat) : Wide × Wide :=
  match directionOf l.ldir with
  | some d => lfsrRunBy m l.lw.toNat l.lt d n l.ls
  | none => (0#16, l.ls)

end Sys2Proof.Machine
end

