-- ==== Sys2Proof/Machine/System.lean ====
section
/-! DEFINITION. NOP, every word that is no command (spec/44_system.md R201, R203), and running the next host input. -/

namespace Sys2Proof.Machine

open Host (Outcome)

/-- NOP (R201). -/
def execNop (s : State) : Outcome State Fault Refusal := reply 0#24 s

/-- An illegal command word, whatever made it illegal (R203, R218). -/
def execIllegal (s : State) : Outcome State Fault Refusal := raise .illegalCommand s

/-- Take the next host input and run it: a command word is decoded and run as the given function runs commands, a word
that is no command as R203 says, the reset event as R240 says; with nothing pending CORE waits (R15, R57). -/
def runNext (run : Instr → State → Outcome State Fault Refusal) (s : State) : Outcome State Fault Refusal :=
  match takeInput s with
  | none => idle s
  | some (.reset, s') => resetEvent s'
  | some (.command w, s') =>
    match decode w with
    | .ok i => run i s'
    | .error _ => execIllegal s'

end Sys2Proof.Machine
end

