-- ==== Sys2Proof/Machine/Feistel.lean ====
section
/-! DEFINITION. The commands of the Feistel engine (spec/42_feistel.md R147 to R157). -/

namespace Sys2Proof.Machine

open Host (Outcome)
open Sys2Proof.Config (Organisation)

/-- FLDB (R147). -/
def execFldb (v : Wide) (s : State) : Outcome State Fault Refusal :=
  replyBlock (s.setBlock (leftHalf v, rightHalf v))

/-- FKCLR (R148). -/
def execFkclr (s : State) : Outcome State Fault Refusal := replyBlock s.clearKeys

/-- FKPUSH (R149): CapacityExceeded when the table holds FK_DEPTH keys. -/
def execFkpush (v : Byte) (s : State) : Outcome State Fault Refusal :=
  guarded (if s.feistel.fkn.toNat = Config.fkDepth then some .capacityExceeded else none) s
    (replyBlock (s.pushKey v))

/-- FF (R150): no register is read or written. -/
def execFf (a b : Byte) (s : State) : Outcome State Fault Refusal := reply (zext24 (fFunction a b)) s

/-- FRND (R151) in an organisation. -/
def execFrndIn (o : Organisation) (k : Byte) (s : State) : Outcome State Fault Refusal :=
  replyBlock (s.setBlock (feistelRoundBy o.feistelRoundMode (blockOf s.feistel) k))

/-- FRND (R151). -/
def execFrnd (k : Byte) (s : State) : Outcome State Fault Refusal := execFrndIn Config.organisation k s

/-- FIRND (R152) in an organisation. -/
def execFirndIn (o : Organisation) (k : Byte) (s : State) : Outcome State Fault Refusal :=
  replyBlock (s.setBlock (feistelInvRoundBy o.feistelRoundMode (blockOf s.feistel) k))

/-- FIRND (R152). -/
def execFirnd (k : Byte) (s : State) : Outcome State Fault Refusal := execFirndIn Config.organisation k s

/-- Encrypt the block with the first n keys (R144). -/
def encryptRounds (o : Organisation) (n : Nat) (s : State) : Outcome State Fault Refusal :=
  replyBlock (s.setBlock (feistelEncryptIn o (blockOf s.feistel) (keysBelow s.feistel n)))

/-- Decrypt the block with the first n keys, last first (R145). -/
def decryptRounds (o : Organisation) (n : Nat) (s : State) : Outcome State Fault Refusal :=
  replyBlock (s.setBlock (feistelDecryptIn o (blockOf s.feistel) (keysBelow s.feistel n)))

/-- FENC (R153) in an organisation: as many rounds as there are keys. -/
def execFencIn (o : Organisation) (s : State) : Outcome State Fault Refusal := encryptRounds o s.feistel.fkn.toNat s

/-- FENC (R153). -/
def execFenc (s : State) : Outcome State Fault Refusal := execFencIn Config.organisation s

/-- FENCN (R154) in an organisation. -/
def execFencnIn (o : Organisation) (n : BitVec 5) (s : State) : Outcome State Fault Refusal :=
  guarded (roundCountError s.feistel n.toNat) s (encryptRounds o n.toNat s)

/-- FENCN (R154). -/
def execFencn (n : BitVec 5) (s : State) : Outcome State Fault Refusal := execFencnIn Config.organisation n s

/-- FDEC (R155) in an organisation. -/
def execFdecIn (o : Organisation) (s : State) : Outcome State Fault Refusal := decryptRounds o s.feistel.fkn.toNat s

/-- FDEC (R155). -/
def execFdec (s : State) : Outcome State Fault Refusal := execFdecIn Config.organisation s

/-- FDECN (R156) in an organisation. -/
def execFdecnIn (o : Organisation) (n : BitVec 5) (s : State) : Outcome State Fault Refusal :=
  guarded (roundCountError s.feistel n.toNat) s (decryptRounds o n.toNat s)

/-- FDECN (R156). -/
def execFdecn (n : BitVec 5) (s : State) : Outcome State Fault Refusal := execFdecnIn Config.organisation n s

/-- FRD (R157, R52). Selector 3, and an index with selector 0 or 1, are illegal words (R80); a term with them runs as
that word does (assumption 8). -/
def execFrd (sel : BitVec 2) (idx : BitVec 4) (s : State) : Outcome State Fault Refusal :=
  match sel with
  | 0#2 => if idx = 0#4 then reply (zext24 (joinHalves s.feistel.fl s.feistel.fr)) s else execIllegal s
  | 1#2 => if idx = 0#4 then reply (zext24 s.feistel.fkn) s else execIllegal s
  | 2#2 =>
    guarded (if s.feistel.fkn.toNat ≤ idx.toNat then some .indexOutOfRange else none) s
      (reply (zext24 (keyAt s.feistel idx.toNat)) s)
  | 3#2 => execIllegal s

end Sys2Proof.Machine
end

