-- ==== Sys2Proof/Machine/Lfsr.lean ====
section
/-! DEFINITION. The commands of the LFSR engine (spec/43_lfsr.md R171 to R181). LDEC is LENC (R180). -/

namespace Sys2Proof.Machine

open Host (Outcome)
open Sys2Proof.Config (Organisation LfsrShiftMode)

/-- LLDS (R171). -/
def execLlds (w : BitVec 5) (v : Wide) (s : State) : Outcome State Fault Refusal :=
  guarded (seedError w v) s (replyLs (s.loadSeed w v))

/-- LLDT (R172): the range of the taps is checked when a step is asked for, not here. -/
def execLldt (v : Wide) (s : State) : Outcome State Fault Refusal := replyLs (s.setTaps v)

/-- LSETD (R173): codes 2 and 3 are stored too. -/
def execLsetd (d : BitVec 2) (s : State) : Outcome State Fault Refusal := replyLs (s.setDirection d)

/-- LRST (R174). -/
def execLrst (s : State) : Outcome State Fault Refusal := replyLs (s.setLs s.lfsr.lseed)

/-- Advance LS by n steps and answer the data XOR the n output bits, left-aligned (R177 to R179). -/
def advance (m : LfsrShiftMode) (n : Nat) (v : Wide) (s : State) : Outcome State Fault Refusal :=
  reply (zext24 (v ^^^ (lfsrAdvanceBy m s.lfsr n).1)) (s.setLs (lfsrAdvanceBy m s.lfsr n).2)

/-- LSTEP (R177): one step, its output bit in `rsp.data[15]`. LFSR_SHIFT_MODE concerns LGEN and LENC only (R9). -/
def execLstep (s : State) : Outcome State Fault Refusal :=
  guarded (steppingError s.lfsr 1) s (advance .serial 1 0#16 s)

/-- LGEN (R178) in an organisation: n keystream bits. A count above CHUNK_MAX is an illegal word (R80, assumption 8). -/
def execLgenIn (o : Organisation) (n : BitVec 5) (s : State) : Outcome State Fault Refusal :=
  if n.toNat ≤ Config.chunkMax then
    guarded (steppingError s.lfsr n.toNat) s (advance o.lfsrShiftMode n.toNat 0#16 s)
  else execIllegal s

/-- LGEN (R178). -/
def execLgen (n : BitVec 5) (s : State) : Outcome State Fault Refusal := execLgenIn Config.organisation n s

/-- LENC (R179) in an organisation: n bits of data XOR the next n keystream bits. A count above CHUNK_MAX is an illegal
word (R80, assumption 8). -/
def execLencIn (o : Organisation) (n : BitVec 5) (v : Wide) (s : State) : Outcome State Fault Refusal :=
  if n.toNat ≤ Config.chunkMax then
    guarded (streamError s.lfsr n.toNat v) s (advance o.lfsrShiftMode n.toNat v s)
  else execIllegal s

/-- LENC (R179). -/
def execLenc (n : BitVec 5) (v : Wide) (s : State) : Outcome State Fault Refusal :=
  execLencIn Config.organisation n v s

/-- The configuration LRD 3 returns: LW in bits 4..0, LDIR in bits 9..8 (R52, R181). -/
def configuration (l : Lfsr) : Area := 0#14 ++ l.ldir ++ 0#3 ++ l.lw

/-- LRD (R181, R52). -/
def execLrd (sel : BitVec 2) (s : State) : Outcome State Fault Refusal :=
  match sel with
  | 0#2 => reply (zext24 s.lfsr.ls) s
  | 1#2 => reply (zext24 s.lfsr.lseed) s
  | 2#2 => reply (zext24 s.lfsr.lt) s
  | 3#2 => reply (configuration s.lfsr) s

end Sys2Proof.Machine
end

