-- ==== Sys2Proof/Machine/Spn.lean ====
section
/-! DEFINITION. The commands of the SPN engine: primitives (spec/40_spn_primitives.md R104 to R111) and composites
(spec/41_spn_cipher.md R123 to R128). None of them can fail (R113, R220). -/

namespace Sys2Proof.Machine

open Host (Outcome)
open Sys2Proof.Config (Organisation)

/-- SLDB (R104). -/
def execSldb (v : Byte) (s : State) : Outcome State Fault Refusal := replySb (s.setSb v)

/-- SLDK (R123). -/
def execSldk (v : Byte) (s : State) : Outcome State Fault Refusal := replySb (s.setSk v)

/-- SLDRK (R105). -/
def execSldrk (v : Byte) (s : State) : Outcome State Fault Refusal := replySb (s.setSrk v)

/-- SKDER (R124). -/
def execSkder (h : BitVec 1) (s : State) : Outcome State Fault Refusal :=
  replySb (s.setSrk (if h = 0#1 then key1 s.spn.sk else key2 s.spn.sk))

/-- SXOR (R106). -/
def execSxor (s : State) : Outcome State Fault Refusal := replySb (s.setSb (s.spn.sb ^^^ s.spn.srk))

/-- SSUB (R107) in an organisation. -/
def execSsubIn (o : Organisation) (s : State) : Outcome State Fault Refusal :=
  replySb (s.setSb (substituteIn o s.spn.sb))

/-- SSUB (R107). -/
def execSsub (s : State) : Outcome State Fault Refusal := execSsubIn Config.organisation s

/-- SISUB (R108) in an organisation. -/
def execSisubIn (o : Organisation) (s : State) : Outcome State Fault Refusal :=
  replySb (s.setSb (invSubstituteIn o s.spn.sb))

/-- SISUB (R108). -/
def execSisub (s : State) : Outcome State Fault Refusal := execSisubIn Config.organisation s

/-- SPERM (R109). -/
def execSperm (s : State) : Outcome State Fault Refusal := replySb (s.setSb (permute s.spn.sb))

/-- SIPERM (R110). -/
def execSiperm (s : State) : Outcome State Fault Refusal := replySb (s.setSb (invPermute s.spn.sb))

/-- SRENC (R125) in an organisation. -/
def execSrencIn (o : Organisation) (s : State) : Outcome State Fault Refusal :=
  replySb (s.setSb (roundEncryptIn o s.spn.sb s.spn.srk))

/-- SRENC (R125). -/
def execSrenc (s : State) : Outcome State Fault Refusal := execSrencIn Config.organisation s

/-- SRDEC (R126) in an organisation. -/
def execSrdecIn (o : Organisation) (s : State) : Outcome State Fault Refusal :=
  replySb (s.setSb (roundDecryptIn o s.spn.sb s.spn.srk))

/-- SRDEC (R126). -/
def execSrdec (s : State) : Outcome State Fault Refusal := execSrdecIn Config.organisation s

/-- SENC (R127) in an organisation: the round keys are formed inside the command, SRK is neither read nor written. -/
def execSencIn (o : Organisation) (s : State) : Outcome State Fault Refusal :=
  replySb (s.setSb (spnEncryptIn o s.spn.sb s.spn.sk))

/-- SENC (R127). -/
def execSenc (s : State) : Outcome State Fault Refusal := execSencIn Config.organisation s

/-- SDEC (R128) in an organisation. -/
def execSdecIn (o : Organisation) (s : State) : Outcome State Fault Refusal :=
  replySb (s.setSb (spnDecryptIn o s.spn.sb s.spn.sk))

/-- SDEC (R128). -/
def execSdec (s : State) : Outcome State Fault Refusal := execSdecIn Config.organisation s

/-- SRD (R111, R52). The selector 3 is no SRD but an illegal word (R80); a term with it runs as that word does
(assumption 8). -/
def execSrd (sel : BitVec 2) (s : State) : Outcome State Fault Refusal :=
  match sel with
  | 0#2 => reply (zext24 s.spn.sb) s
  | 1#2 => reply (zext24 s.spn.sk) s
  | 2#2 => reply (zext24 s.spn.srk) s
  | 3#2 => execIllegal s

end Sys2Proof.Machine
end

