-- ==== Sys2Proof/Machine/Dispatch.lean ====
section
/-! DEFINITION. What each command does: one meaning per constructor of Instr. -/

namespace Sys2Proof.Machine

def exec (i : Instr) (s : State) : Host.Outcome State Fault Refusal :=
  match i with
  | .nop => Sys2Proof.Machine.execNop s
  | .sldb v => Sys2Proof.Machine.execSldb v s
  | .sldk v => Sys2Proof.Machine.execSldk v s
  | .sldrk v => Sys2Proof.Machine.execSldrk v s
  | .skder h => Sys2Proof.Machine.execSkder h s
  | .sxor => Sys2Proof.Machine.execSxor s
  | .ssub => Sys2Proof.Machine.execSsub s
  | .sisub => Sys2Proof.Machine.execSisub s
  | .sperm => Sys2Proof.Machine.execSperm s
  | .siperm => Sys2Proof.Machine.execSiperm s
  | .srenc => Sys2Proof.Machine.execSrenc s
  | .srdec => Sys2Proof.Machine.execSrdec s
  | .senc => Sys2Proof.Machine.execSenc s
  | .sdec => Sys2Proof.Machine.execSdec s
  | .srd sel => Sys2Proof.Machine.execSrd sel s
  | .fldb v => Sys2Proof.Machine.execFldb v s
  | .fkclr => Sys2Proof.Machine.execFkclr s
  | .fkpush v => Sys2Proof.Machine.execFkpush v s
  | .ff a b => Sys2Proof.Machine.execFf a b s
  | .frnd k => Sys2Proof.Machine.execFrnd k s
  | .firnd k => Sys2Proof.Machine.execFirnd k s
  | .fenc => Sys2Proof.Machine.execFenc s
  | .fencn n => Sys2Proof.Machine.execFencn n s
  | .fdec => Sys2Proof.Machine.execFdec s
  | .fdecn n => Sys2Proof.Machine.execFdecn n s
  | .frd sel idx => Sys2Proof.Machine.execFrd sel idx s
  | .llds w v => Sys2Proof.Machine.execLlds w v s
  | .lldt v => Sys2Proof.Machine.execLldt v s
  | .lsetd d => Sys2Proof.Machine.execLsetd d s
  | .lrst => Sys2Proof.Machine.execLrst s
  | .lstep => Sys2Proof.Machine.execLstep s
  | .lgen n => Sys2Proof.Machine.execLgen n s
  | .lenc n v => Sys2Proof.Machine.execLenc n v s
  | .lrd sel => Sys2Proof.Machine.execLrd sel s

end Sys2Proof.Machine
end

