-- ==== Sys2Proof/Machine/Step.lean ====
section
/-! DEFINITION. One step of the machine (spec/00_scope.md R15, spec/20_memory.md R57): take the next host input, decode
it if it is a command word, and run its rule. -/

namespace Sys2Proof.Machine

/-- One step (R15, R57, R203, R240). -/
def step (s : State) : Host.Outcome State Fault Refusal := runNext exec s

/-- The state with the command word the host presents next; CORE fetches nothing (R22, R60), so the word stands at
the head of the command port (assumption 2). -/
def State.withFetchWord (s : State) (nbits w : Nat) : State := s.present (tableWord nbits w)

end Sys2Proof.Machine
end

