-- ==== Sys2Proof/Machine/Organised.lean ====
section
/-! DEFINITION. The machine with its internal organisation an argument (spec/00_scope.md R9,
spec/70_reset_and_hazards.md R251): what each command does, and one step, for every value of the open parameters. exec
and step are these at Config.organisation (assumption 10). -/

namespace Sys2Proof.Machine

open Host (Outcome)
open Sys2Proof.Config (Organisation)

/-- What each command does in an organisation (R9). -/
def execIn (o : Organisation) (i : Instr) (s : State) : Outcome State Fault Refusal :=
  match i with
  | .nop => execNop s
  | .sldb v => execSldb v s
  | .sldk v => execSldk v s
  | .sldrk v => execSldrk v s
  | .skder h => execSkder h s
  | .sxor => execSxor s
  | .ssub => execSsubIn o s
  | .sisub => execSisubIn o s
  | .sperm => execSperm s
  | .siperm => execSiperm s
  | .srenc => execSrencIn o s
  | .srdec => execSrdecIn o s
  | .senc => execSencIn o s
  | .sdec => execSdecIn o s
  | .srd sel => execSrd sel s
  | .fldb v => execFldb v s
  | .fkclr => execFkclr s
  | .fkpush v => execFkpush v s
  | .ff a b => execFf a b s
  | .frnd k => execFrndIn o k s
  | .firnd k => execFirndIn o k s
  | .fenc => execFencIn o s
  | .fencn n => execFencnIn o n s
  | .fdec => execFdecIn o s
  | .fdecn n => execFdecnIn o n s
  | .frd sel idx => execFrd sel idx s
  | .llds w v => execLlds w v s
  | .lldt v => execLldt v s
  | .lsetd d => execLsetd d s
  | .lrst => execLrst s
  | .lstep => execLstep s
  | .lgen n => execLgenIn o n s
  | .lenc n v => execLencIn o n v s
  | .lrd sel => execLrd sel s

/-- One step in an organisation (R9). -/
def stepIn (o : Organisation) (s : State) : Outcome State Fault Refusal := runNext (execIn o) s

end Sys2Proof.Machine
end

