-- ==== Sys2Proof/Machine/Pseudo.lean ====
section
/-! DEFINITION. The host's side of the command port: the pseudo-instructions and how a host runs a list of commands
(spec/30_encoding.md R83, R84; spec/42_feistel.md R158; spec/43_lfsr.md R185; spec/60_exceptions.md R230). -/

namespace Sys2Proof.Machine

/-- The pseudo-instructions (R84). Sequences longer than a field are lists of bits, first element first; a direction
is the code LSETD takes. -/
inductive Pseudo where
  | ldec (n : BitVec 5) (v : Wide)
  | spnEnc (pt key : Byte)
  | spnDec (ct key : Byte)
  | spnRenc (blk rk : Byte)
  | spnRdec (blk rk : Byte)
  | spnSub (v : Byte)
  | spnIsub (v : Byte)
  | spnPerm (v : Byte)
  | spnIperm (v : Byte)
  | feiEnc (blk : Wide) (keys : List Byte)
  | feiDec (blk : Wide) (keys : List Byte)
  | feiEncn (n : BitVec 5) (blk : Wide) (keys : List Byte)
  | feiDecn (n : BitVec 5) (blk : Wide) (keys : List Byte)
  | lfsrInit (state : List Bool) (taps : List Nat) (dir : BitVec 2)
  | lfsrKs (len : Nat)
  | lfsrEnc (pt : List Bool)
  | lfsrDec (ct : List Bool)
  deriving DecidableEq, Repr

/-- A tap set as the value LLDT takes: bit 15 - t for each listed t (R83). -/
def tapSet (taps : List Nat) : Wide := taps.foldl (fun acc t => acc ||| (1#16 <<< (15 - t))) 0#16

/-- The successive 16-element pieces of a sequence, at most fuel of them (R84). -/
def pieces : Nat → List Bool → List (List Bool)
  | 0, _ => []
  | _ + 1, [] => []
  | k + 1, b :: bs => (b :: bs).take 16 :: pieces k ((b :: bs).drop 16)

/-- LENC of one piece of at most 16 elements (R84). -/
def lencPiece (p : List Bool) : Instr := .lenc (BitVec.ofNat 5 p.length) (packBits p)

/-- The LENC commands that carry a message: one for each piece, and `LENC 0, 0` for the empty message (R84). -/
def lencMessage (bits : List Bool) : List Instr :=
  match bits with
  | [] => [.lenc 0#5 0#16]
  | b :: bs => (pieces (b :: bs).length (b :: bs)).map lencPiece

/-- The LGEN commands for len keystream bits; the last is left out when the remainder is 0 and len is not (R84). -/
def lgenMessage (len : Nat) : List Instr :=
  List.replicate (len / 16) (.lgen 16#5)
    ++ (if len % 16 = 0 ∧ 0 < len then [] else [.lgen (BitVec.ofNat 5 (len % 16))])

/-- The commands that load a block and at most FK_DEPTH round keys (R84, R158); none for a longer list. -/
def feistelCall (blk : Wide) (keys : List Byte) (last : Instr) : Option (List Instr) :=
  if keys.length ≤ Config.fkDepth then some ([.fkclr] ++ keys.map .fkpush ++ [.fldb blk, last]) else none

/-- The commands a pseudo-instruction stands for (R84); none when an operand does not fit its field (R83). LRST stands
once, before the first piece (assumption 11). -/
def expand : Pseudo → Option (List Instr)
  | .ldec n v => some [.lenc n v]
  | .spnEnc pt key => some [.sldb pt, .sldk key, .senc]
  | .spnDec ct key => some [.sldb ct, .sldk key, .sdec]
  | .spnRenc blk rk => some [.sldb blk, .sldrk rk, .srenc]
  | .spnRdec blk rk => some [.sldb blk, .sldrk rk, .srdec]
  | .spnSub v => some [.sldb v, .ssub]
  | .spnIsub v => some [.sldb v, .sisub]
  | .spnPerm v => some [.sldb v, .sperm]
  | .spnIperm v => some [.sldb v, .siperm]
  | .feiEnc blk keys => feistelCall blk keys .fenc
  | .feiDec blk keys => feistelCall blk keys .fdec
  | .feiEncn n blk keys => feistelCall blk keys (.fencn n)
  | .feiDecn n blk keys => feistelCall blk keys (.fdecn n)
  | .lfsrInit st taps dir =>
    if st.length ≤ Config.lfsrWmax ∧ taps.all (· < 16) then
      some [.llds (BitVec.ofNat 5 st.length) (packBits st), .lldt (tapSet taps), .lsetd dir]
    else none
  | .lfsrKs len => some (.lrst :: lgenMessage len)
  | .lfsrEnc pt => some (.lrst :: lencMessage pt)
  | .lfsrDec ct => some (.lrst :: lencMessage ct)

/-- A host runs a list of commands: it presents each word after the response to the one before, and stops at the first
response that is not Ok (R84, R230). The final state, and the responses in order. -/
def hostRun : List Instr → State → State × List Rsp
  | [], s => (s, [])
  | i :: is, s =>
    match step { s with pending := [.command (encode i)] } with
    | .next t =>
      match t.responses.getLast? with
      | some r =>
        if r.status = .ok then
          let rest := hostRun is t
          (rest.1, r :: rest.2)
        else (t, [r])
      | none => (t, [])
    | .fault f => nomatch f
    | .refused _ => (s, [])

/-- The bits of a stream a command's response carries: the first n of `rsp.data[15:0]` for LGEN and LENC (R84). -/
def streamBits (i : Instr) (r : Rsp) : List Bool :=
  match i with
  | .lgen n => unpackBits n.toNat (r.data.setWidth 16)
  | .lenc n _ => unpackBits n.toNat (r.data.setWidth 16)
  | .nop => []
  | .sldb _ | .sldk _ | .sldrk _ | .skder _ | .sxor | .ssub | .sisub | .sperm | .siperm | .srenc | .srdec
  | .senc | .sdec | .srd _ => []
  | .fldb _ | .fkclr | .fkpush _ | .ff _ _ | .frnd _ | .firnd _ | .fenc | .fencn _ | .fdec | .fdecn _
  | .frd _ _ => []
  | .llds _ _ | .lldt _ | .lsetd _ | .lrst | .lstep | .lrd _ => []

/-- The bits of a stream its responses carry, in order (R84). -/
def streamConcat (is : List Instr) (rs : List Rsp) : List Bool := (List.zipWith streamBits is rs).flatten

/-- The result of LFSR.KS, LFSR.ENC and LFSR.DEC: the concatenated bits, or the error the host reports (R84). That a
run that stopped on an error has no bits as its result, those of the pieces before it included, is this model's DESIGN
CHOICE (assumption 17): R84 says only that the host stops and reports the error. -/
def streamResult (is : List Instr) (rs : List Rsp) : Except Status (List Bool) :=
  match rs.find? (fun r => r.status ≠ .ok) with
  | some r => .error r.status
  | none => .ok (streamConcat is rs)

end Sys2Proof.Machine
end

