-- ==== Sys2Proof/Safety.lean ====
section
/-! DEFINITION. The words claims are stated in: the legal register states (spec/10_state.md R35), the form of a response
(spec/30_encoding.md R72, R82), which command may return which status (spec/60_exceptions.md R220), what no command
can observe (spec/70_reset_and_hazards.md R241), the opcode map as match and mask (spec/30_encoding.md R75), the inverse
laws (spec/40_spn_primitives.md R112, spec/42_feistel.md R146), and the LFSR on bit sequences (spec/43_lfsr.md R170, R175). -/

namespace Sys2Proof.Machine

/-- Invariants 1, 2 and 3 of R35: FKN and LW at most 16, and no 1 in LSEED or LS at a sequence index at or beyond LW. -/
def State.Legal (s : State) : Prop :=
  s.feistel.fkn.toNat ≤ 16 ∧ s.lfsr.lw.toNat ≤ 16 ∧
    (∀ i, s.lfsr.lw.toNat ≤ i → s.lfsr.lseed.getMsbD i = false ∧ s.lfsr.ls.getMsbD i = false)

/-- The form of a response: data 0 when the status is not Ok, and bits 23..16 of the data 0 (R72, R82). -/
def Rsp.Formed (r : Rsp) : Prop := (r.status ≠ .ok → r.data = 0#24) ∧ r.data.extractLsb' 16 8 = 0#8

/-- Two states that may differ in key-table entries at or above FKN, and in nothing else (R28, R241). -/
def SameButDeadKeys (s t : State) : Prop :=
  s.spn = t.spn ∧ s.lfsr = t.lfsr ∧ s.pending = t.pending ∧ s.responses = t.responses ∧
    s.feistel.fl = t.feistel.fl ∧ s.feistel.fr = t.feistel.fr ∧ s.feistel.fkn = t.feistel.fkn ∧
    ∀ i, i < s.feistel.fkn.toNat → s.feistel.fk[i]? = t.feistel.fk[i]?

/-- One function on blocks undoes another, for every block x (R112, R146). -/
def Undoes {Block : Type} (g f : Block → Block) : Prop := ∀ x : Block, g (f x) = x

/-- The Feistel invariant for a key list and a round count: decryption undoes encryption and encryption undoes
decryption, for every block (R146). -/
def FeistelInvariant (keys : List Byte) (n : Nat) : Prop :=
  Undoes (feistelDecryptN keys n) (feistelEncryptN keys n) ∧ Undoes (feistelEncryptN keys n) (feistelDecryptN keys n)

/-- The statuses R220 lets a command return beside Ok. -/
def mayFailWith : Instr → List Status
  | .fkpush _ => [.capacityExceeded]
  | .fencn _ => [.invalidArgument]
  | .fdecn _ => [.invalidArgument]
  | .frd _ _ => [.indexOutOfRange]
  | .llds _ _ => [.invalidInput, .capacityExceeded]
  | .lstep => [.invalidInput, .invalidArgument, .indexOutOfRange]
  | .lgen _ => [.invalidInput, .invalidArgument, .indexOutOfRange]
  | .lenc _ _ => [.invalidInput, .invalidArgument, .indexOutOfRange]
  | .nop => []
  | .sldb _ | .sldk _ | .sldrk _ | .skder _ | .sxor | .ssub | .sisub | .sperm | .siperm | .srenc | .srdec
  | .senc | .sdec | .srd _ => []
  | .fldb _ | .fkclr | .ff _ _ | .frnd _ | .firnd _ | .fenc | .fdec => []
  | .lldt _ | .lsetd _ | .lrst | .lrd _ => []

/-- One line of the opcode map: mnemonic, match, mask, and the extra constraint on the word (R75, R76). -/
structure MapLine where
  mnemonic : String
  pattern : Word
  mask : Word
  constraint : Word → Bool

/-- The word is the command of a line (R75, R76). -/
def MapLine.Accepts (l : MapLine) (w : Word) : Prop := w &&& l.mask = l.pattern ∧ l.constraint w = true

/-- NOP and the lines of the SPN engine (R75). -/
def spnMap : List MapLine :=
  [⟨"NOP", 0x00000000, 0xFFFFFFFF, fun _ => true⟩, ⟨"SLDB", 0x10000000, 0xFFFFFF00, fun _ => true⟩,
   ⟨"SLDK", 0x11000000, 0xFFFFFF00, fun _ => true⟩, ⟨"SLDRK", 0x12000000, 0xFFFFFF00, fun _ => true⟩,
   ⟨"SKDER", 0x13000000, 0xFFFFFFFE, fun _ => true⟩, ⟨"SXOR", 0x14000000, 0xFFFFFFFF, fun _ => true⟩,
   ⟨"SSUB", 0x15000000, 0xFFFFFFFF, fun _ => true⟩, ⟨"SISUB", 0x16000000, 0xFFFFFFFF, fun _ => true⟩,
   ⟨"SPERM", 0x17000000, 0xFFFFFFFF, fun _ => true⟩, ⟨"SIPERM", 0x18000000, 0xFFFFFFFF, fun _ => true⟩,
   ⟨"SRENC", 0x19000000, 0xFFFFFFFF, fun _ => true⟩, ⟨"SRDEC", 0x1A000000, 0xFFFFFFFF, fun _ => true⟩,
   ⟨"SENC", 0x1B000000, 0xFFFFFFFF, fun _ => true⟩, ⟨"SDEC", 0x1C000000, 0xFFFFFFFF, fun _ => true⟩,
   ⟨"SRD", 0x1D000000, 0xFFFFFFFC, fun w => w.extractLsb' 0 2 != 3#2⟩]

/-- The lines of the Feistel engine (R75). -/
def feistelMap : List MapLine :=
  [⟨"FLDB", 0x20000000, 0xFFFF0000, fun _ => true⟩, ⟨"FKCLR", 0x21000000, 0xFFFFFFFF, fun _ => true⟩,
   ⟨"FKPUSH", 0x22000000, 0xFFFFFF00, fun _ => true⟩, ⟨"FF", 0x23000000, 0xFFFF0000, fun _ => true⟩,
   ⟨"FRND", 0x24000000, 0xFFFFFF00, fun _ => true⟩, ⟨"FIRND", 0x25000000, 0xFFFFFF00, fun _ => true⟩,
   ⟨"FENC", 0x26000000, 0xFFFFFFFF, fun _ => true⟩, ⟨"FENCN", 0x27000000, 0xFFFFFFE0, fun _ => true⟩,
   ⟨"FDEC", 0x28000000, 0xFFFFFFFF, fun _ => true⟩, ⟨"FDECN", 0x29000000, 0xFFFFFFE0, fun _ => true⟩,
   ⟨"FRD", 0x2A000000, 0xFFFFFCF0, fun w => w.extractLsb' 8 2 != 3#2 &&
      (w.extractLsb' 8 2 == 2#2 || w.extractLsb' 0 4 == 0#4)⟩]

/-- The lines of the LFSR engine (R75). -/
def lfsrMap : List MapLine :=
  [⟨"LLDS", 0x30000000, 0xFFE00000, fun _ => true⟩, ⟨"LLDT", 0x31000000, 0xFFFF0000, fun _ => true⟩,
   ⟨"LSETD", 0x32000000, 0xFFFFFFFC, fun _ => true⟩, ⟨"LRST", 0x33000000, 0xFFFFFFFF, fun _ => true⟩,
   ⟨"LSTEP", 0x34000000, 0xFFFFFFFF, fun _ => true⟩,
   ⟨"LGEN", 0x35000000, 0xFFE0FFFF, fun w => decide ((w.extractLsb' 16 5).toNat ≤ 16)⟩,
   ⟨"LENC", 0x36000000, 0xFFE00000, fun w => decide ((w.extractLsb' 16 5).toNat ≤ 16)⟩,
   ⟨"LRD", 0x37000000, 0xFFFFFFFC, fun _ => true⟩]

/-- The complete opcode map by match and mask (R75). -/
def opcodeMap : List MapLine := spnMap ++ feistelMap ++ lfsrMap

/-- The XOR of the elements of a state at a list of tap indices; 0 for none (R13, R175). -/
def seqFeedback (taps : List Nat) (q : List Bool) : Bool :=
  taps.foldl (fun acc t => acc ^^ q.getD t false) false

/-- `lfsr_step` on a bit sequence, first element first (R175): the output bit and the new state. -/
def seqStep (taps : List Nat) (d : Direction) (q : List Bool) : Bool × List Bool :=
  match d with
  | .right => (q.getLastD false, seqFeedback taps q :: q.dropLast)
  | .left => (q.headD false, q.tail ++ [seqFeedback taps q])

/-- n steps on a bit sequence: the output bits in order, and the last state (R183). -/
def seqRun (taps : List Nat) (d : Direction) : Nat → List Bool → List Bool × List Bool
  | 0, q => ([], q)
  | n + 1, q =>
    let first := seqStep taps d q
    let rest := seqRun taps d n first.2
    (first.1 :: rest.1, rest.2)

/-- The tap indices a select vector selects (R32). -/
def tapsOf (lt : Wide) : List Nat := (List.range 16).filter lt.getMsbD

/-- The bit sequence LS holds: its first LW elements (R34). -/
def stateSequence (l : Lfsr) : List Bool := unpackBits l.lw.toNat l.ls

/-- x is `F(h, k)`: bit i is bit i - 1 of h XOR k, and bit 0 its top bit (R141). -/
def IsF (h k x : Byte) : Prop :=
  (∀ i, 1 ≤ i → i < 8 → x.getLsbD i = (h ^^^ k).getLsbD (i - 1)) ∧ x.getLsbD 0 = (h ^^^ k).getLsbD 7

/-- The value has a 1 at a sequence index at or beyond n (R12, R171, R179). -/
def HasStray (n : Nat) (v : Wide) : Prop := ∃ i, n ≤ i ∧ i < 16 ∧ v.getMsbD i = true

/-- The command asks for n steps of the LFSR on the data v: LSTEP one and LGEN n on no data, LENC n on data without
stray bits (R177 to R179). -/
def AsksForSteps (i : Instr) (n : Nat) (v : Wide) : Prop :=
  (i = .lstep ∧ n = 1 ∧ v = 0#16) ∨
    (∃ m : BitVec 5, i = .lgen m ∧ m.toNat = n ∧ n ≤ 16 ∧ v = 0#16) ∨
    (∃ m : BitVec 5, i = .lenc m v ∧ m.toNat = n ∧ n ≤ 16 ∧ ¬ HasStray n v)

/-- The LFSR is ready to step: a state is loaded, no selected tap is at or beyond LW, and LDIR names the direction
(R176). -/
def ReadyToStep (l : Lfsr) (d : Direction) : Prop :=
  l.lw ≠ 0#5 ∧ ¬ HasStray l.lw.toNat l.lt ∧ ((l.ldir = 0#2 ∧ d = .right) ∨ (l.ldir = 1#2 ∧ d = .left))

end Sys2Proof.Machine
end

