-- ==== Sys2Proof/Certificates/Slice0/Obligations.lean ====
section
/-! DEFINITION. The statements about CORE, from the numbered rules of spec/. Every result statement gives the whole next
state as a record update of the state before, so it is its command's frame too: every register it does not name, and the
commands still pending, are as they were. `respond` appends the response to the responses returned so far. -/

open Sys2Proof Sys2Proof.Machine Host

/-! ### The step, decoding and encoding -/

/-- R15, R57: a pending command word that decodes is run as the command it decodes to; the step only takes the word from
the port (assumption 1). -/
def Obligations.StepRunsTheDecodedCommand : Prop :=
  ∀ (s : State) (w : Word) (rest : List HostInput) (i : Instr),
    s.pending = .command w :: rest → decode w = .ok i → step s = exec i { s with pending := rest }

/-- R203: a word that no line of the opcode map accepts answers IllegalCommand with data 0, and nothing else changes. -/
def Obligations.IllegalWordRaisesIllegalCommand : Prop :=
  ∀ (s : State) (w : Word) (rest : List HostInput),
    s.pending = .command w :: rest → (∀ l ∈ opcodeMap, ¬ l.Accepts w) →
      step s = .next ({ s with pending := rest }.respond ⟨.illegalCommand, 0#24⟩) ∧
        Rsp.toWord ⟨.illegalCommand, 0#24⟩ = 0x04000000#32

/-- R75, R80: a word decodes to a command of mnemonic m exactly when the map's line of m accepts it. -/
def Obligations.DecodeAcceptsExactlyTheOpcodeMap : Prop :=
  ∀ (w : Word) (m : String),
    (∃ i, decode w = .ok i ∧ i.mnemonic = m) ↔ ∃ l ∈ opcodeMap, l.mnemonic = m ∧ l.Accepts w

/-- R70, R71, R73, R75: decoding the word of a well-formed command gives the command, with every operand. -/
def Obligations.DecodeOfEncodeIsTheCommand : Prop :=
  ∀ i : Instr, i.wellFormed = true → decode (encode i) = .ok i

/-- R70, R71, R79: a command has one word: a word that decodes to it is its encoding, and only well-formed commands are
decoded. -/
def Obligations.EncodeOfDecodeIsTheWord : Prop :=
  ∀ (w : Word) (i : Instr), decode w = .ok i → encode i = w ∧ i.wellFormed = true

/-- Words written out in the instruction rules and in spec/95_test_vectors.md T16 decode to the commands named there. -/
def Obligations.WrittenOutWordsDecode : Prop :=
  decode 0x00000000#32 = .ok .nop ∧ decode 0x1000006D#32 = .ok (.sldb 0x6D#8) ∧
    decode 0x2300340F#32 = .ok (.ff 0x34#8 0x0F#8) ∧ decode 0x2A000202#32 = .ok (.frd 2#2 2#4) ∧
    decode 0x3004B000#32 = .ok (.llds 4#5 0xB000#16) ∧ decode 0x36046000#32 = .ok (.lenc 4#5 0x6000#16)

/-! ### Reset, waiting, totality -/

/-- R39: the reset value of every register the table gives a value, in the state after reset and after the reset event. -/
def Obligations.ResetGivesTheTablesValues : Prop :=
  (State.reset.spn = ⟨0x00#8, 0x00#8, 0x00#8⟩ ∧ State.reset.feistel.fl = 0x00#8 ∧
    State.reset.feistel.fr = 0x00#8 ∧ State.reset.feistel.fkn = 0#5 ∧
    State.reset.lfsr = ⟨0#5, 0#2, 0x0000#16, 0x0000#16, 0x0000#16⟩) ∧
  ∀ (s : State) (rest : List HostInput), s.pending = .reset :: rest →
    ∃ t, step s = .next t ∧ t.spn = ⟨0x00#8, 0x00#8, 0x00#8⟩ ∧ t.feistel.fl = 0x00#8 ∧
      t.feistel.fr = 0x00#8 ∧ t.feistel.fkn = 0#5 ∧ t.lfsr = ⟨0#5, 0#2, 0x0000#16, 0x0000#16, 0x0000#16⟩

/-- R230, R229 and assumptions 3 and 5 (the model's form of the port): the reset event has no response and leaves what is
still pending; with nothing pending a step changes nothing. -/
def Obligations.PortOverResetAndWaiting : Prop :=
  (∀ (s : State) (rest : List HostInput), s.pending = .reset :: rest →
    ∃ t, step s = .next t ∧ t.pending = rest ∧ t.responses = s.responses) ∧
  ∀ s : State, s.pending = [] → step s = .next s

/-- R245: every state and every one of the 2^32 words has a successor and exactly one response, and the response's word has
one of the six status codes in its top byte and the data below (R70, R211). -/
def Obligations.EveryWordGetsOneResponse : Prop :=
  ∀ (s : State) (w : Word) (rest : List HostInput), s.pending = .command w :: rest →
    ∃ t r, step s = .next t ∧ t.pending = rest ∧ t.responses = s.responses ++ [r] ∧
      r.toWord.extractLsb' 24 8 ∈ [0x00#8, 0x01#8, 0x02#8, 0x03#8, 0x04#8, 0x05#8] ∧
      r.toWord.extractLsb' 0 24 = r.data

/-- R245: no step stops the machine. -/
def Obligations.StepNeverStops : Prop := ∀ s : State, ∃ t, step s = .next t

/-! ### Invariants -/

/-- The invariant of 10_state.md section 6, and the form of responses, hold after reset. -/
def Obligations.ResetIsLegalAndFormed : Prop :=
  State.reset.Legal ∧ ∀ r ∈ State.reset.responses, r.Formed

/-- 10_state.md section 6, points 1 to 3 (the spec marks them derived): every step keeps them, from every state. -/
def Obligations.StepKeepsRegistersLegal : Prop :=
  ∀ s t : State, s.Legal → step s = .next t → t.Legal

/-- R72, and the last sentence of 30_encoding.md section 6 (marked derived there): a failure's data is 0, and bits 23..16 of
the data are 0 in every response. -/
def Obligations.StepKeepsResponsesFormed : Prop :=
  ∀ s t : State, (∀ r ∈ s.responses, r.Formed) → step s = .next t → ∀ r ∈ t.responses, r.Formed

/-! ### Rules of the whole machine -/

/-- R215: a command that answers a status other than Ok answers data 0 and leaves every register as it was. -/
def Obligations.FailureIsAtomic : Prop :=
  ∀ (s t : State) (w : Word) (rest : List HostInput) (r : Rsp), s.pending = .command w :: rest →
    step s = .next t → t.responses = s.responses ++ [r] → r.status ≠ .ok →
      t = { s with pending := rest }.respond ⟨r.status, 0#24⟩

/-- The table of 60_exceptions.md section 2 (marked derived there): a command returns Ok or a status of its row, and never
IllegalCommand. -/
def Obligations.CommandsReturnOnlyTheirStatuses : Prop :=
  ∀ (i : Instr) (s t : State) (r : Rsp), i.wellFormed = true → exec i s = .next t →
    t.responses = s.responses ++ [r] → r.status = .ok ∨ r.status ∈ mayFailWith i

/-- The "Written by" sentences of R24 to R34: which commands may change each register. -/
def Obligations.RegistersChangeOnlyByTheirCommands : Prop :=
  ∀ (i : Instr) (s t : State), exec i s = .next t →
    (t.spn.sb ≠ s.spn.sb → i.mnemonic ∈
      ["SLDB", "SXOR", "SSUB", "SISUB", "SPERM", "SIPERM", "SRENC", "SRDEC", "SENC", "SDEC"]) ∧
    (t.spn.sk ≠ s.spn.sk → i.mnemonic = "SLDK") ∧
    (t.spn.srk ≠ s.spn.srk → i.mnemonic ∈ ["SLDRK", "SKDER"]) ∧
    (t.feistel.fl ≠ s.feistel.fl ∨ t.feistel.fr ≠ s.feistel.fr → i.mnemonic ∈
      ["FLDB", "FRND", "FIRND", "FENC", "FENCN", "FDEC", "FDECN"]) ∧
    (t.feistel.fk ≠ s.feistel.fk → i.mnemonic = "FKPUSH") ∧
    (t.feistel.fkn ≠ s.feistel.fkn → i.mnemonic ∈ ["FKCLR", "FKPUSH"]) ∧
    (t.lfsr.lw ≠ s.lfsr.lw → i.mnemonic = "LLDS") ∧
    (t.lfsr.lseed ≠ s.lfsr.lseed → i.mnemonic = "LLDS") ∧
    (t.lfsr.ldir ≠ s.lfsr.ldir → i.mnemonic = "LSETD") ∧
    (t.lfsr.lt ≠ s.lfsr.lt → i.mnemonic = "LLDT") ∧
    (t.lfsr.ls ≠ s.lfsr.ls → i.mnemonic ∈ ["LLDS", "LRST", "LSTEP", "LGEN", "LENC"])

/-- R20 and 20_memory.md section 7 (marked derived there): two commands of different engines, or one of them NOP, may be
swapped: the same registers at the end, the same response to each. -/
def Obligations.DifferentEnginesCommute : Prop :=
  ∀ (i j : Instr) (s : State), (i.engine = none ∨ j.engine = none ∨ i.engine ≠ j.engine) →
    ∃ s₁ s₂ t₁ t₂ ri rj, exec i s = .next s₁ ∧ exec j s₁ = .next s₂ ∧ exec j s = .next t₁ ∧
      exec i t₁ = .next t₂ ∧ s₂.spn = t₂.spn ∧ s₂.feistel = t₂.feistel ∧ s₂.lfsr = t₂.lfsr ∧
      s₁.responses = s.responses ++ [ri] ∧ s₂.responses = s.responses ++ [ri, rj] ∧
      t₁.responses = s.responses ++ [rj] ∧ t₂.responses = s.responses ++ [rj, ri]

/-- R241, R28: what the key table holds at or above FKN is never observed: states that differ only there answer alike and
stay alike. It does not depend on the model's reset contents of FK (assumption 4). -/
def Obligations.DeadKeysAreUnobservable : Prop :=
  ∀ s s' t : State, SameButDeadKeys s s' → step s = .next t →
    ∃ t', step s' = .next t' ∧ SameButDeadKeys t t'

/-- 10_state.md section 6, point 4 (marked derived there), R28, R51: the sequence of keys below FKN stays as it is, is
emptied by FKCLR, or gets the operand of FKPUSH appended; no command changes it otherwise. -/
def Obligations.KeySequenceGrowsOnlyByPush : Prop :=
  ∀ (i : Instr) (s t : State), s.feistel.fkn.toNat ≤ 16 → exec i s = .next t →
    keysBelow t.feistel t.feistel.fkn.toNat = keysBelow s.feistel s.feistel.fkn.toNat ∨
    (i = .fkclr ∧ keysBelow t.feistel t.feistel.fkn.toNat = []) ∨
    ∃ v, i = .fkpush v ∧ keysBelow t.feistel t.feistel.fkn.toNat
      = keysBelow s.feistel s.feistel.fkn.toNat ++ [v]

/-- R23, R36: no command observes a response returned before it, nor what the host presents after it. -/
def Obligations.NoCommandReadsThePort : Prop :=
  ∀ (i : Instr) (s : State) (p : List HostInput) (rs : List Rsp),
    ∃ t t' r, exec i s = .next t ∧ exec i { s with pending := p, responses := rs } = .next t' ∧
      t'.spn = t.spn ∧ t'.feistel = t.feistel ∧ t'.lfsr = t.lfsr ∧
      t.responses = s.responses ++ [r] ∧ t'.responses = rs ++ [r] ∧ t'.pending = p

/-- 20_memory.md section 4 (R55): issued twice in a row, a command that does not transform its engine's data, push a key
or step the LFSR leaves the registers as the first issue left them and answers the same. -/
def Obligations.RepeatingALoadOrReadChangesNothingMore : Prop :=
  ∀ (i : Instr) (s : State), i.mnemonic ∈
      ["NOP", "SLDB", "SLDK", "SLDRK", "SKDER", "SRD", "FLDB", "FKCLR", "FF", "FRD", "LLDS", "LLDT", "LSETD", "LRST",
        "LRD"] →
    ∃ t u r, exec i s = .next t ∧ exec i t = .next u ∧ u.spn = t.spn ∧ u.feistel = t.feistel ∧ u.lfsr = t.lfsr ∧
      t.responses = s.responses ++ [r] ∧ u.responses = s.responses ++ [r, r]

/-! ### NOP and the SPN engine -/

/-- R201: NOP answers 0 and changes nothing; its only word is 0. -/
def Obligations.NopDoesNothing : Prop :=
  (∀ s : State, exec .nop s = .next (s.respond ⟨.ok, 0#24⟩)) ∧ decode 0#32 = .ok .nop ∧
    ∀ a : Area, a ≠ 0#24 → decode (0x00#8 ++ a) = .error .mbzViolation

/-- R104, R105, R123: SLDB, SLDRK and SLDK store their operand and answer SB as it then is. -/
def Obligations.SpnLoadsStoreTheirOperand : Prop :=
  ∀ (s : State) (v : Byte),
    (exec (.sldb v) s = .next ({ s with spn := { s.spn with sb := v } }.respond ⟨.ok, v.setWidth 24⟩) ∧
      decode (0x100000#24 ++ v) = .ok (.sldb v)) ∧
    (exec (.sldrk v) s = .next ({ s with spn := { s.spn with srk := v } }.respond ⟨.ok, s.spn.sb.setWidth 24⟩) ∧
      decode (0x120000#24 ++ v) = .ok (.sldrk v)) ∧
    (exec (.sldk v) s = .next ({ s with spn := { s.spn with sk := v } }.respond ⟨.ok, s.spn.sb.setWidth 24⟩) ∧
      decode (0x110000#24 ++ v) = .ok (.sldk v))

/-- R124: SKDER writes the chosen half of SK, twice, to SRK. -/
def Obligations.SkderWritesAHalfTwice : Prop :=
  ∀ s : State,
    exec (.skder 0#1) s = .next ({ s with spn := { s.spn with
        srk := s.spn.sk.extractLsb' 4 4 ++ s.spn.sk.extractLsb' 4 4 } }.respond ⟨.ok, s.spn.sb.setWidth 24⟩) ∧
    exec (.skder 1#1) s = .next ({ s with spn := { s.spn with
        srk := s.spn.sk.extractLsb' 0 4 ++ s.spn.sk.extractLsb' 0 4 } }.respond ⟨.ok, s.spn.sb.setWidth 24⟩) ∧
    decode 0x13000000#32 = .ok (.skder 0#1) ∧ decode 0x13000001#32 = .ok (.skder 1#1)

/-- R106: SXOR, and issued twice it restores SB. -/
def Obligations.SxorAppliesTheRoundKey : Prop :=
  ∀ s : State, ∃ t u,
    exec .sxor s = .next t ∧ t = { s with spn := { s.spn with sb := s.spn.sb ^^^ s.spn.srk } }.respond
      ⟨.ok, (s.spn.sb ^^^ s.spn.srk).setWidth 24⟩ ∧
    exec .sxor t = .next u ∧ u.spn = s.spn ∧ decode 0x14000000#32 = .ok .sxor

/-- R107, R108 by the tables of R100 and R101: every group of SB is replaced through the table. -/
def Obligations.SubstitutionsLookUpEachGroup : Prop :=
  ∀ s : State, ∃ x y : Byte,
    (∀ g, g < 4 → (x.extractLsb' (6 - 2 * g) 2).toNat
      = [2, 0, 3, 1].getD (s.spn.sb.extractLsb' (6 - 2 * g) 2).toNat 0) ∧
    (∀ g, g < 4 → (y.extractLsb' (6 - 2 * g) 2).toNat
      = [1, 3, 0, 2].getD (s.spn.sb.extractLsb' (6 - 2 * g) 2).toNat 0) ∧
    exec .ssub s = .next ({ s with spn := { s.spn with sb := x } }.respond ⟨.ok, x.setWidth 24⟩) ∧
    exec .sisub s = .next ({ s with spn := { s.spn with sb := y } }.respond ⟨.ok, y.setWidth 24⟩) ∧
    decode 0x15000000#32 = .ok .ssub ∧ decode 0x16000000#32 = .ok .sisub

/-- R109, R110 by the mappings of R102 and R103: within each half, output position i takes the input bit at the mapping's
entry i, positions counted from the most significant bit. -/
def Obligations.PermutationsMoveEachBit : Prop :=
  ∀ s : State, ∃ x y : Byte,
    (∀ h i, h < 2 → i < 4 → x.getMsbD (4 * h + i) = s.spn.sb.getMsbD (4 * h + [2, 0, 1, 3].getD i 0)) ∧
    (∀ h i, h < 2 → i < 4 → y.getMsbD (4 * h + i) = s.spn.sb.getMsbD (4 * h + [1, 2, 0, 3].getD i 0)) ∧
    exec .sperm s = .next ({ s with spn := { s.spn with sb := x } }.respond ⟨.ok, x.setWidth 24⟩) ∧
    exec .siperm s = .next ({ s with spn := { s.spn with sb := y } }.respond ⟨.ok, y.setWidth 24⟩) ∧
    decode 0x17000000#32 = .ok .sperm ∧ decode 0x18000000#32 = .ok .siperm

/-- R125, R126: one round, as the composition of the document's functions. -/
def Obligations.SpnRoundsCompose : Prop :=
  ∀ s : State,
    exec .srenc s = .next ({ s with spn := { s.spn with sb := permute (substitute (s.spn.sb ^^^ s.spn.srk)) } }.respond
      ⟨.ok, (permute (substitute (s.spn.sb ^^^ s.spn.srk))).setWidth 24⟩) ∧
    exec .srdec s = .next ({ s with spn := { s.spn with sb := invSubstitute (invPermute s.spn.sb) ^^^ s.spn.srk } }.respond
      ⟨.ok, (invSubstitute (invPermute s.spn.sb) ^^^ s.spn.srk).setWidth 24⟩) ∧
    decode 0x19000000#32 = .ok .srenc ∧ decode 0x1A000000#32 = .ok .srdec

/-- R127, R128: the 2-round cipher with the round keys formed from the halves of SK; SK and SRK are not changed. -/
def Obligations.SpnCipherTakesKeyHalves : Prop :=
  ∀ (s : State) (k1 k2 : Byte),
    k1 = s.spn.sk.extractLsb' 4 4 ++ s.spn.sk.extractLsb' 4 4 →
    k2 = s.spn.sk.extractLsb' 0 4 ++ s.spn.sk.extractLsb' 0 4 →
    exec .senc s = .next ({ s with spn := { s.spn with
        sb := roundEncrypt (roundEncrypt s.spn.sb k1) k2 } }.respond
      ⟨.ok, (roundEncrypt (roundEncrypt s.spn.sb k1) k2).setWidth 24⟩) ∧
    exec .sdec s = .next ({ s with spn := { s.spn with
        sb := roundDecrypt (roundDecrypt s.spn.sb k2) k1 } }.respond
      ⟨.ok, (roundDecrypt (roundDecrypt s.spn.sb k2) k1).setWidth 24⟩) ∧
    decode 0x1B000000#32 = .ok .senc ∧ decode 0x1C000000#32 = .ok .sdec

/-- 41_spn_cipher.md section 2 (marked derived there): each composite command leaves in SB what its sequence of primitive
commands leaves; the sequences for SENC and SDEC leave a derived key in SRK. -/
def Obligations.CompositesEqualPrimitiveSequences : Prop :=
  ∀ s : State,
    (∃ a b c d, exec .sxor s = .next a ∧ exec .ssub a = .next b ∧ exec .sperm b = .next c ∧
      exec .srenc s = .next d ∧ c.spn = d.spn) ∧
    (∃ a b c d, exec .siperm s = .next a ∧ exec .sisub a = .next b ∧ exec .sxor b = .next c ∧
      exec .srdec s = .next d ∧ c.spn = d.spn) ∧
    (∃ a b c d e, exec (.skder 0#1) s = .next a ∧ exec .srenc a = .next b ∧ exec (.skder 1#1) b = .next c ∧
      exec .srenc c = .next d ∧ exec .senc s = .next e ∧ d.spn = { e.spn with srk := key2 s.spn.sk }) ∧
    (∃ a b c d e, exec (.skder 1#1) s = .next a ∧ exec .srdec a = .next b ∧ exec (.skder 0#1) b = .next c ∧
      exec .srdec c = .next d ∧ exec .sdec s = .next e ∧ d.spn = { e.spn with srk := key1 s.spn.sk })

/-- R112: the inverse pairs of primitives restore the SPN registers in both orders, and neither function is its own
inverse. -/
def Obligations.SpnPrimitivesUndoEachOther : Prop :=
  (∀ s : State,
    (∃ a b, exec .ssub s = .next a ∧ exec .sisub a = .next b ∧ b.spn = s.spn) ∧
    (∃ a b, exec .sisub s = .next a ∧ exec .ssub a = .next b ∧ b.spn = s.spn) ∧
    (∃ a b, exec .sperm s = .next a ∧ exec .siperm a = .next b ∧ b.spn = s.spn) ∧
    (∃ a b, exec .siperm s = .next a ∧ exec .sperm a = .next b ∧ b.spn = s.spn)) ∧
  (Undoes invSubstitute substitute ∧ Undoes substitute invSubstitute ∧
    Undoes invPermute permute ∧ Undoes permute invPermute) ∧
  substitute 0x00#8 = 0xAA#8 ∧ substitute (substitute 0x00#8) = 0xFF#8 ∧
    permute 0x20#8 = 0x80#8 ∧ permute (permute 0x20#8) = 0x40#8

/-- R129: decryption undoes encryption, for one round in both orders and for the cipher, for every block and key; and so the
commands restore the SPN registers. -/
def Obligations.SpnDecryptionUndoesEncryption : Prop :=
  (∀ b k : Byte, roundDecrypt (roundEncrypt b k) k = b ∧ roundEncrypt (roundDecrypt b k) k = b ∧
    spnDecrypt (spnEncrypt b k) k = b) ∧
  ∀ s : State,
    (∃ a b, exec .senc s = .next a ∧ exec .sdec a = .next b ∧ b.spn = s.spn) ∧
    (∃ a b, exec .sdec s = .next a ∧ exec .senc a = .next b ∧ b.spn = s.spn) ∧
    (∃ a b, exec .srenc s = .next a ∧ exec .srdec a = .next b ∧ b.spn = s.spn)

/-- R111: SRD answers the selected register and changes nothing, and after reset answers 0; selector 3 is no SRD. -/
def Obligations.SrdAnswersTheSelectedRegister : Prop :=
  (∀ s : State,
    exec (.srd 0#2) s = .next (s.respond ⟨.ok, s.spn.sb.setWidth 24⟩) ∧
    exec (.srd 1#2) s = .next (s.respond ⟨.ok, s.spn.sk.setWidth 24⟩) ∧
    exec (.srd 2#2) s = .next (s.respond ⟨.ok, s.spn.srk.setWidth 24⟩)) ∧
  (∀ sel : BitVec 2, sel ≠ 3#2 → exec (.srd sel) State.reset = .next (State.reset.respond ⟨.ok, 0#24⟩)) ∧
  decode 0x1D000000#32 = .ok (.srd 0#2) ∧ decode 0x1D000001#32 = .ok (.srd 1#2) ∧
    decode 0x1D000002#32 = .ok (.srd 2#2) ∧ decode 0x1D000003#32 = .error .reservedField

/-! ### The Feistel engine -/

/-- R147: FLDB loads the high byte into FL and the low byte into FR and answers the block. -/
def Obligations.FldbLoadsTheBlock : Prop :=
  ∀ (s : State) (v : Wide),
    exec (.fldb v) s = .next ({ s with feistel := { s.feistel with
        fl := v.extractLsb' 8 8, fr := v.extractLsb' 0 8 } }.respond ⟨.ok, v.setWidth 24⟩) ∧
    decode (0x2000#16 ++ v) = .ok (.fldb v)

/-- R148: FKCLR sets the count to 0 and leaves the block, and answers the block; afterwards no entry can be read. -/
def Obligations.FkclrEmptiesTheSequence : Prop :=
  ∀ (s : State) (idx : BitVec 4),
    exec .fkclr s = .next ({ s with feistel := { s.feistel with fkn := 0#5 } }.respond
      ⟨.ok, (s.feistel.fl ++ s.feistel.fr).setWidth 24⟩) ∧
    (∀ t, exec .fkclr s = .next t → exec (.frd 2#2 idx) t = .next (t.respond ⟨.indexOutOfRange, 0#24⟩)) ∧
    decode 0x21000000#32 = .ok .fkclr

/-- R149: FKPUSH writes entry FKN and no other and adds 1 to FKN; with sixteen keys it fails with CapacityExceeded. -/
def Obligations.FkpushAppendsOneKey : Prop :=
  ∀ (s : State) (v : Byte),
    (s.feistel.fkn.toNat < 16 → ∃ (fk : Vector Byte 16) (n : BitVec 5),
      fk[s.feistel.fkn.toNat]? = some v ∧ (∀ i, i ≠ s.feistel.fkn.toNat → fk[i]? = s.feistel.fk[i]?) ∧
      n.toNat = s.feistel.fkn.toNat + 1 ∧
      exec (.fkpush v) s = .next ({ s with feistel := { s.feistel with fk := fk, fkn := n } }.respond
        ⟨.ok, (s.feistel.fl ++ s.feistel.fr).setWidth 24⟩)) ∧
    (s.feistel.fkn.toNat = 16 → exec (.fkpush v) s = .next (s.respond ⟨.capacityExceeded, 0#24⟩)) ∧
    decode (0x220000#24 ++ v) = .ok (.fkpush v)

/-- R150, with F of R141: FF answers F of its operands and changes nothing. -/
def Obligations.FfAnswersF : Prop :=
  ∀ (s : State) (a b : Byte), ∃ x, IsF a b x ∧
    exec (.ff a b) s = .next (s.respond ⟨.ok, x.setWidth 24⟩) ∧ decode (0x2300#16 ++ a ++ b) = .ok (.ff a b)

/-- R151, R152: one round and one inverse round on the block, with the operand as round key. -/
def Obligations.FeistelRoundCommands : Prop :=
  ∀ (s : State) (k : Byte),
    (∃ f, IsF s.feistel.fr k f ∧
      exec (.frnd k) s = .next ({ s with feistel := { s.feistel with
        fl := s.feistel.fr, fr := s.feistel.fl ^^^ f } }.respond
        ⟨.ok, (s.feistel.fr ++ (s.feistel.fl ^^^ f)).setWidth 24⟩)) ∧
    (∃ f, IsF s.feistel.fl k f ∧
      exec (.firnd k) s = .next ({ s with feistel := { s.feistel with
        fl := s.feistel.fr ^^^ f, fr := s.feistel.fl } }.respond
        ⟨.ok, ((s.feistel.fr ^^^ f) ++ s.feistel.fl).setWidth 24⟩)) ∧
    decode (0x240000#24 ++ k) = .ok (.frnd k) ∧ decode (0x250000#24 ++ k) = .ok (.firnd k)

/-- R143: the round and the inverse round undo each other, the inverse round is the round with the halves exchanged before
and after, and so FRND and FIRND with one key undo each other. -/
def Obligations.FeistelRoundsUndoEachOther : Prop :=
  (∀ (b : Byte × Byte) (k : Byte), feistelInvRound (feistelRound b k) k = b ∧
    feistelRound (feistelInvRound b k) k = b ∧ feistelInvRound b k = (feistelRound b.swap k).swap) ∧
  ∀ (s : State) (k : Byte),
    (∃ a b, exec (.frnd k) s = .next a ∧ exec (.firnd k) a = .next b ∧ b.feistel = s.feistel) ∧
    (∃ a b, exec (.firnd k) s = .next a ∧ exec (.frnd k) a = .next b ∧ b.feistel = s.feistel)

/-- R153, R154: n rounds with the keys FK[0] to FK[n-1] in that order, halves l i and r i after i rounds; FENC is that with
n = FKN; a count above FKN fails with InvalidArgument before any round. The premise is the invariant's FKN <= 16. -/
def Obligations.FencRunsTheRounds : Prop :=
  ∀ (s : State) (m : BitVec 5), s.feistel.fkn.toNat ≤ 16 →
    (s.feistel.fkn.toNat < m.toNat → exec (.fencn m) s = .next (s.respond ⟨.invalidArgument, 0#24⟩)) ∧
    (m.toNat ≤ s.feistel.fkn.toNat → ∃ l r : Nat → Byte, l 0 = s.feistel.fl ∧ r 0 = s.feistel.fr ∧
      (∀ i, i < m.toNat → ∃ k f, s.feistel.fk[i]? = some k ∧ IsF (r i) k f ∧
        l (i + 1) = r i ∧ r (i + 1) = l i ^^^ f) ∧
      exec (.fencn m) s = .next ({ s with feistel := { s.feistel with fl := l m.toNat, fr := r m.toNat } }.respond
        ⟨.ok, (l m.toNat ++ r m.toNat).setWidth 24⟩)) ∧
    exec .fenc s = exec (.fencn s.feistel.fkn) s ∧ (∃ t, exec .fenc s = .next t ∧
      t.responses.getLast? = some ⟨.ok, (t.feistel.fl ++ t.feistel.fr).setWidth 24⟩) ∧
    decode 0x26000000#32 = .ok .fenc ∧ decode (0x270000#24 ++ 0#3 ++ m) = .ok (.fencn m)

/-- R155, R156: n inverse rounds with the keys FK[n-1] down to FK[0], halves l j and r j after j of them; FDEC is that with
n = FKN; a count above FKN fails with InvalidArgument. The premise is the invariant's FKN <= 16. -/
def Obligations.FdecRunsTheInverseRounds : Prop :=
  ∀ (s : State) (m : BitVec 5), s.feistel.fkn.toNat ≤ 16 →
    (s.feistel.fkn.toNat < m.toNat → exec (.fdecn m) s = .next (s.respond ⟨.invalidArgument, 0#24⟩)) ∧
    (m.toNat ≤ s.feistel.fkn.toNat → ∃ l r : Nat → Byte, l 0 = s.feistel.fl ∧ r 0 = s.feistel.fr ∧
      (∀ j, j < m.toNat → ∃ k f, s.feistel.fk[m.toNat - 1 - j]? = some k ∧ IsF (l j) k f ∧
        l (j + 1) = r j ^^^ f ∧ r (j + 1) = l j) ∧
      exec (.fdecn m) s = .next ({ s with feistel := { s.feistel with fl := l m.toNat, fr := r m.toNat } }.respond
        ⟨.ok, (l m.toNat ++ r m.toNat).setWidth 24⟩)) ∧
    exec .fdec s = exec (.fdecn s.feistel.fkn) s ∧ (∃ t, exec .fdec s = .next t ∧
      t.responses.getLast? = some ⟨.ok, (t.feistel.fl ++ t.feistel.fr).setWidth 24⟩) ∧
    decode 0x28000000#32 = .ok .fdec ∧ decode (0x290000#24 ++ 0#3 ++ m) = .ok (.fdecn m)

/-- R146: decryption undoes encryption. On the functions: with a whole key list, and (the general form, marked derived
there) with every count up to its length, in both orders; for the empty list both are the identity. On the commands: with
the same table and count, in both orders, for every state and every count the table holds. -/
def Obligations.FeistelDecryptionUndoesEncryption : Prop :=
  (∀ (keys : List Byte) (b : Byte × Byte), feistelDecrypt (feistelEncrypt b keys) keys = b) ∧
  (∀ (keys : List Byte) (n : Nat), n ≤ keys.length → FeistelInvariant keys n) ∧
  (∀ b : Byte × Byte, feistelEncrypt b [] = b ∧ feistelDecrypt b [] = b) ∧
  ∀ (s : State) (m : BitVec 5), m.toNat ≤ s.feistel.fkn.toNat →
    (∃ a b, exec (.fencn m) s = .next a ∧ exec (.fdecn m) a = .next b ∧ b.feistel = s.feistel) ∧
    (∃ a b, exec (.fdecn m) s = .next a ∧ exec (.fencn m) a = .next b ∧ b.feistel = s.feistel) ∧
    (∃ a b, exec .fenc s = .next a ∧ exec .fdec a = .next b ∧ b.feistel = s.feistel) ∧
    (∃ a b, exec .fdec s = .next a ∧ exec .fenc a = .next b ∧ b.feistel = s.feistel)

/-- R157: FRD answers the block, the count, or the entry at an index below FKN, fails with IndexOutOfRange at or above it,
and changes nothing; after reset the block and the count read 0 and no entry can be read. -/
def Obligations.FrdAnswersTheSelectedValue : Prop :=
  (exec (.frd 0#2 0#4) State.reset = .next (State.reset.respond ⟨.ok, 0#24⟩) ∧
    exec (.frd 1#2 0#4) State.reset = .next (State.reset.respond ⟨.ok, 0#24⟩) ∧
    ∀ idx : BitVec 4, exec (.frd 2#2 idx) State.reset = .next (State.reset.respond ⟨.indexOutOfRange, 0#24⟩)) ∧
  ∀ s : State,
    exec (.frd 0#2 0#4) s = .next (s.respond ⟨.ok, (s.feistel.fl ++ s.feistel.fr).setWidth 24⟩) ∧
    exec (.frd 1#2 0#4) s = .next (s.respond ⟨.ok, s.feistel.fkn.setWidth 24⟩) ∧
    (∀ idx : BitVec 4, idx.toNat < s.feistel.fkn.toNat → ∃ k, s.feistel.fk[idx.toNat]? = some k ∧
      exec (.frd 2#2 idx) s = .next (s.respond ⟨.ok, k.setWidth 24⟩)) ∧
    (∀ idx : BitVec 4, s.feistel.fkn.toNat ≤ idx.toNat →
      exec (.frd 2#2 idx) s = .next (s.respond ⟨.indexOutOfRange, 0#24⟩)) ∧
    decode 0x2A000000#32 = .ok (.frd 0#2 0#4) ∧ decode 0x2A000100#32 = .ok (.frd 1#2 0#4) ∧
    ∀ idx : BitVec 4, decode (0x2A00020#28 ++ idx) = .ok (.frd 2#2 idx)

/-! ### The LFSR engine -/

/-- R171: LLDS checks its length and its value in that order and then loads LW, LSEED and LS. -/
def Obligations.LldsChecksAndLoads : Prop :=
  ∀ (s : State) (w : BitVec 5) (v : Wide),
    (16 < w.toNat → exec (.llds w v) s = .next (s.respond ⟨.capacityExceeded, 0#24⟩)) ∧
    (w = 0#5 → exec (.llds w v) s = .next (s.respond ⟨.invalidInput, 0#24⟩)) ∧
    (w ≠ 0#5 → w.toNat ≤ 16 → HasStray w.toNat v →
      exec (.llds w v) s = .next (s.respond ⟨.invalidInput, 0#24⟩)) ∧
    (w ≠ 0#5 → w.toNat ≤ 16 → ¬ HasStray w.toNat v →
      exec (.llds w v) s = .next ({ s with lfsr := { s.lfsr with lw := w, lseed := v, ls := v } }.respond
        ⟨.ok, v.setWidth 24⟩)) ∧
    decode (0x30#8 ++ 0#3 ++ w ++ v) = .ok (.llds w v)

/-- R172, R173, R174: LLDT, LSETD and LRST store without a check and answer LS as it then is. -/
def Obligations.LfsrLoadsStoreTheirOperand : Prop :=
  ∀ (s : State) (v : Wide) (d : BitVec 2),
    (exec (.lldt v) s = .next ({ s with lfsr := { s.lfsr with lt := v } }.respond ⟨.ok, s.lfsr.ls.setWidth 24⟩) ∧
      decode (0x3100#16 ++ v) = .ok (.lldt v)) ∧
    (exec (.lsetd d) s = .next ({ s with lfsr := { s.lfsr with ldir := d } }.respond ⟨.ok, s.lfsr.ls.setWidth 24⟩) ∧
      decode (0x32#8 ++ 0#22 ++ d) = .ok (.lsetd d)) ∧
    (exec .lrst s = .next ({ s with lfsr := { s.lfsr with ls := s.lfsr.lseed } }.respond
        ⟨.ok, s.lfsr.lseed.setWidth 24⟩) ∧
      decode 0x33000000#32 = .ok .lrst)

/-- R176: the checks of LSTEP, LGEN and LENC, in their order; nothing changes when one fails, and a command that passes
them all completes. -/
def Obligations.SteppingChecksInOrder : Prop :=
  ∀ (s : State) (i : Instr) (n : Nat) (v : Wide), AsksForSteps i n v →
    (s.lfsr.lw = 0#5 → exec i s = .next (s.respond ⟨.invalidInput, 0#24⟩)) ∧
    (s.lfsr.lw ≠ 0#5 → HasStray s.lfsr.lw.toNat s.lfsr.lt →
      exec i s = .next (s.respond ⟨.indexOutOfRange, 0#24⟩)) ∧
    (s.lfsr.lw ≠ 0#5 → ¬ HasStray s.lfsr.lw.toNat s.lfsr.lt → 1 ≤ n → s.lfsr.ldir ≠ 0#2 → s.lfsr.ldir ≠ 1#2 →
      exec i s = .next (s.respond ⟨.invalidArgument, 0#24⟩)) ∧
    (s.lfsr.lw ≠ 0#5 → ¬ HasStray s.lfsr.lw.toNat s.lfsr.lt → (n = 0 ∨ s.lfsr.ldir = 0#2 ∨ s.lfsr.ldir = 1#2) →
      ∃ (x : Wide) (d : Area), exec i s = .next ({ s with lfsr := { s.lfsr with ls := x } }.respond ⟨.ok, d⟩))

/-- R179, R217: LENC's own check comes first: data with a 1 at or beyond n fails with InvalidInput in every state. -/
def Obligations.LencRefusesStrayData : Prop :=
  ∀ (s : State) (n : BitVec 5) (v : Wide), n.toNat ≤ 16 → HasStray n.toNat v →
    exec (.lenc n v) s = .next (s.respond ⟨.invalidInput, 0#24⟩)

/-- R177, R178, R179 by the step on bit sequences of R175: n steps from the sequence LS holds, the new sequence left-aligned
in LS with zeros after it, and the answer the data XOR the n output bits, bit j in place 15 - j. The premise is the
invariant of 10_state.md section 6. -/
def Obligations.SteppingFollowsTheSequenceStep : Prop :=
  ∀ (s : State) (i : Instr) (n : Nat) (v : Wide) (d : Direction), s.Legal → AsksForSteps i n v →
    ReadyToStep s.lfsr d → ∃ x ks : Wide,
      unpackBits s.lfsr.lw.toNat x = (seqRun (tapsOf s.lfsr.lt) d n (stateSequence s.lfsr)).2 ∧
      (∀ k, s.lfsr.lw.toNat ≤ k → x.getMsbD k = false) ∧
      (∀ j, j < 16 → ks.getMsbD j = (seqRun (tapsOf s.lfsr.lt) d n (stateSequence s.lfsr)).1.getD j false) ∧
      exec i s = .next ({ s with lfsr := { s.lfsr with ls := x } }.respond ⟨.ok, (v ^^^ ks).setWidth 24⟩)

/-- R176, R178, R179: with no step asked for, LDIR is not looked at: LGEN 0 and LENC 0 of no data answer 0 and change
nothing, whatever LDIR holds. -/
def Obligations.ZeroStepsIgnoreTheDirection : Prop :=
  ∀ s : State, s.lfsr.lw ≠ 0#5 → ¬ HasStray s.lfsr.lw.toNat s.lfsr.lt →
    exec (.lgen 0#5) s = .next (s.respond ⟨.ok, 0#24⟩) ∧
    exec (.lenc 0#5 0#16) s = .next (s.respond ⟨.ok, 0#24⟩)

/-- 43_lfsr.md section 1 (the chunking paragraph, marked derived): LGEN (a + b) answers the bits of LGEN a followed by those
of LGEN b, and leaves LS where they leave it; and LSTEP is LGEN 1 (R177). -/
def Obligations.KeystreamSplitsIntoChunks : Prop :=
  (∀ (s : State) (a b c : BitVec 5) (x : Wide) (e : Area), c.toNat = a.toNat + b.toNat →
    exec (.lgen c) s = .next ({ s with lfsr := { s.lfsr with ls := x } }.respond ⟨.ok, e⟩) →
    ∃ (y : Wide) (ea eb : Area),
      exec (.lgen a) s = .next ({ s with lfsr := { s.lfsr with ls := y } }.respond ⟨.ok, ea⟩) ∧
      exec (.lgen b) { s with lfsr := { s.lfsr with ls := y } }
        = .next ({ s with lfsr := { s.lfsr with ls := x } }.respond ⟨.ok, eb⟩) ∧
      e = ea ||| (eb >>> a.toNat)) ∧
  ∀ s : State, exec .lstep s = exec (.lgen 1#5) s

/-- R184: LENC of the result from the same running state gives the data back and leaves the same LS. -/
def Obligations.LencUndoesItself : Prop :=
  ∀ (s : State) (n : BitVec 5) (v x : Wide) (e : Area),
    exec (.lenc n v) s = .next ({ s with lfsr := { s.lfsr with ls := x } }.respond ⟨.ok, e⟩) →
    exec (.lenc n (e.setWidth 16)) s
      = .next ({ s with lfsr := { s.lfsr with ls := x } }.respond ⟨.ok, v.setWidth 24⟩)

/-- R186: with no taps, LW steps empty the register, and from the zero state every output is 0 and LS stays 0. -/
def Obligations.EmptyTapsEmptyTheRegister : Prop :=
  ∀ (s : State) (n : BitVec 5) (d : Direction), s.Legal → ReadyToStep s.lfsr d → s.lfsr.lt = 0#16 →
    (∃ e : Area, exec (.lgen s.lfsr.lw) s = .next ({ s with lfsr := { s.lfsr with ls := 0#16 } }.respond ⟨.ok, e⟩)) ∧
    (s.lfsr.ls = 0#16 → n.toNat ≤ 16 → exec (.lgen n) s = .next (s.respond ⟨.ok, 0#24⟩))

/-- R181: LRD answers the selected register, or LW and LDIR, and changes nothing; after reset every selector answers 0. -/
def Obligations.LrdAnswersTheSelectedRegister : Prop :=
  (∀ sel : BitVec 2, exec (.lrd sel) State.reset = .next (State.reset.respond ⟨.ok, 0#24⟩)) ∧
  ∀ s : State,
    exec (.lrd 0#2) s = .next (s.respond ⟨.ok, s.lfsr.ls.setWidth 24⟩) ∧
    exec (.lrd 1#2) s = .next (s.respond ⟨.ok, s.lfsr.lseed.setWidth 24⟩) ∧
    exec (.lrd 2#2) s = .next (s.respond ⟨.ok, s.lfsr.lt.setWidth 24⟩) ∧
    (∃ c : Area, c.extractLsb' 0 5 = s.lfsr.lw ∧ c.extractLsb' 5 3 = 0#3 ∧ c.extractLsb' 8 2 = s.lfsr.ldir ∧
      c.extractLsb' 10 14 = 0#14 ∧ exec (.lrd 3#2) s = .next (s.respond ⟨.ok, c⟩)) ∧
    ∀ sel : BitVec 2, decode (0x37#8 ++ 0#22 ++ sel) = .ok (.lrd sel)

/-! ### Organisations and the host's calls -/

/-- The organisations this model writes down for the open parameters (DESIGN CHOICE, log entry 10): the substitution at
once or group by group (SBOX_MODE), the LFSR run unrolled or iterated (LFSR_SHIFT_MODE), a Feistel round on a whole half
(FEISTEL_ROUND_MODE in 00_scope.md section 5), and its rounds unrolled or iterated (the same parameter in
70_reset_and_hazards.md section 5). Each computes what the rules' functions compute. -/
def Obligations.OrganisationsAgree : Prop :=
  (∀ (m : Config.SboxMode) (t : BitVec 2 → BitVec 2) (x : Byte), substituteBy m t x = mapGroups t x) ∧
  (∀ (m : Config.LfsrShiftMode) (w : Nat) (lt : Wide) (d : Direction) (n : Nat) (ls : Wide), n ≤ 16 →
    lfsrRunBy m w lt d n ls = (packBits (lfsrRun w lt d n ls).1, (lfsrRun w lt d n ls).2)) ∧
  (∀ (m : Config.FeistelRoundMode) (b : Byte × Byte) (k : Byte),
    feistelRoundBy m b k = feistelRound b k ∧ feistelInvRoundBy m b k = feistelInvRound b k) ∧
  ∀ (m : Config.RoundSchedule) (round : Byte × Byte → Byte → Byte × Byte) (b : Byte × Byte) (keys : List Byte),
    keys.length ≤ 16 → roundsBy m round b keys = keys.foldl round b

/-- In each of the model's own organisations (DESIGN CHOICE, log entry 10), every command and every step answers what
exec and step answer, which run in one of them: no result depends on an open parameter (00_scope.md section 5). The
premise is point 1 of State.Legal; the unrolled rounds have sixteen stages. -/
def Obligations.EveryOrganisationRunsTheSameMachine : Prop :=
  ∀ (o : Config.Organisation) (s : State), s.feistel.fkn.toNat ≤ 16 →
    (∀ i : Instr, execIn o i s = exec i s) ∧ stepIn o s = step s

/-- R84, R129: the call SPN.ENC from any state with nothing pending answers a ciphertext from which SPN.DEC with the same
key answers the plaintext. -/
def Obligations.SpnCallsRoundTrip : Prop :=
  ∀ (s : State) (pt key : Byte), ∃ enc dec t rs ct t' rs',
    expand (.spnEnc pt key) = some enc ∧ hostRun enc s = (t, rs) ∧ rs.getLast? = some ⟨.ok, ct⟩ ∧
    rs.length = enc.length ∧ ct = (spnEncrypt pt key).setWidth 24 ∧
    expand (.spnDec (ct.setWidth 8) key) = some dec ∧ hostRun dec t = (t', rs') ∧
    rs'.getLast? = some ⟨.ok, pt.setWidth 24⟩

/-- R84 and 42_feistel.md section 3 (marked derived there): FEI.ENC and FEI.DEC with one list of at most sixteen keys give
the block back, whatever the table held before. -/
def Obligations.FeistelCallsRoundTrip : Prop :=
  ∀ (s : State) (blk : Wide) (keys : List Byte), keys.length ≤ 16 → ∃ enc dec t rs ct t' rs',
    expand (.feiEnc blk keys) = some enc ∧ hostRun enc s = (t, rs) ∧ rs.getLast? = some ⟨.ok, ct⟩ ∧
    rs.length = enc.length ∧
    expand (.feiDec (ct.setWidth 16) keys) = some dec ∧ hostRun dec t = (t', rs') ∧
    rs'.getLast? = some ⟨.ok, blk.setWidth 24⟩

/-- R184, R84: LFSR.ENC of a message of any length, then LFSR.DEC of the result, gives the message back, from every legal
state ready to step. -/
def Obligations.LfsrCallsRoundTrip : Prop :=
  ∀ (s : State) (d : Direction) (pt : List Bool), s.Legal → ReadyToStep s.lfsr d →
    ∃ enc dec t rs ct t' rs',
      expand (.lfsrEnc pt) = some enc ∧ hostRun enc s = (t, rs) ∧ streamResult enc rs = .ok ct ∧
      ct.length = pt.length ∧ expand (.lfsrDec ct) = some dec ∧ hostRun dec t = (t', rs') ∧
      streamResult dec rs' = .ok pt

/-- R84: a host that runs any commands stops at the first response that is not Ok, and a stream that stopped so has that
error as its result. That it has no bits beside the error is the model's choice (DESIGN CHOICE, log entry 17). -/
def Obligations.StreamCallReportsItsError : Prop :=
  ∀ (is : List Instr) (s t : State) (rs : List Rsp), hostRun is s = (t, rs) →
    (∀ r ∈ rs.dropLast, r.status = .ok) ∧
    ∀ r, rs.getLast? = some r → r.status ≠ .ok → streamResult is rs = .error r.status
end

