-- ==== Sys2Proof/Laws/Decode.lean ====
section
/-! SUPPORT. The opcode and the operand area of an encoded command (R70). -/

namespace Sys2Proof

theorem extractLsb'_append_low {m n : Nat} (a : BitVec m) (b : BitVec n) : (a ++ b).extractLsb' 0 n = b := by
  apply BitVec.eq_of_getLsbD_eq
  intro i hi
  simp [BitVec.getLsbD_append, hi]

theorem extractLsb'_append_high {m n : Nat} (a : BitVec m) (b : BitVec n) : (a ++ b).extractLsb' n m = a := by
  apply BitVec.eq_of_getLsbD_eq
  intro i hi
  simp [BitVec.getLsbD_append, hi]

@[simp] theorem opcodeOf_encode (i : Instr) : opcodeOf (encode i) = opcode i := extractLsb'_append_high _ _

@[simp] theorem areaOf_encode (i : Instr) : areaOf (encode i) = operandArea i := extractLsb'_append_low _ _

/-- A word is its opcode and its operand area. -/
theorem opcodeOf_append_areaOf (w : Word) : opcodeOf w ++ areaOf w = w := by
  apply BitVec.eq_of_getLsbD_eq
  intro i hi
  simp only [opcodeOf, areaOf, BitVec.getLsbD_append, BitVec.getLsbD_extractLsb']
  by_cases h : i < 24
  · simp [h]
  · have h8 : i - 24 < 8 := by omega
    have h24 : 24 + (i - 24) = i := by omega
    simp [h, h8, h24]

end Sys2Proof
end

