-- ==== Sys2Proof/Laws/Feistel.lean ====
section
/-! SUPPORT. The rounds of the Feistel engine and the key table (R28, R141 to R145, R149). -/

namespace Sys2Proof.Machine

theorem feistelInvRound_feistelRound (b : Byte × Byte) (k : Byte) :
    feistelInvRound (feistelRound b k) k = b := by
  simp [feistelInvRound, feistelRound]

theorem feistelRound_feistelInvRound (b : Byte × Byte) (k : Byte) :
    feistelRound (feistelInvRound b k) k = b := by
  simp [feistelInvRound, feistelRound]

theorem feistelDecrypt_feistelEncrypt (b : Byte × Byte) (keys : List Byte) :
    feistelDecrypt (feistelEncrypt b keys) keys = b := by
  induction keys generalizing b with
  | nil => rfl
  | cons k ks ih =>
    have h := ih (feistelRound b k)
    simp only [feistelDecrypt, feistelEncrypt] at h
    simp [feistelDecrypt, feistelEncrypt, List.foldl_append, h, feistelInvRound_feistelRound]

theorem feistelEncrypt_feistelDecrypt (b : Byte × Byte) (keys : List Byte) :
    feistelEncrypt (feistelDecrypt b keys) keys = b := by
  induction keys generalizing b with
  | nil => rfl
  | cons k ks ih =>
    have h := ih b
    simp only [feistelDecrypt, feistelEncrypt, List.foldl_reverse] at h
    simp [feistelDecrypt, feistelEncrypt, feistelRound_feistelInvRound, h]

@[simp] theorem keysBelow_zero (f : Feistel) : keysBelow f 0 = [] := rfl

/-- One more key is the next entry, after the others. -/
theorem keysBelow_succ (f : Feistel) (n : Nat) : keysBelow f (n + 1) = keysBelow f n ++ [keyAt f n] := by
  simp [keysBelow, List.range_succ]

@[simp] theorem length_keysBelow (f : Feistel) (n : Nat) : (keysBelow f n).length = n := by simp [keysBelow]

/-- The first n keys depend on the first n entries only. -/
theorem keysBelow_congr {f g : Feistel} {n : Nat} (h : ∀ i, i < n → f.fk[i]? = g.fk[i]?) :
    keysBelow f n = keysBelow g n := by
  apply List.map_congr_left
  intro i hi
  simp [keyAt, h i (List.mem_range.mp hi)]

/-- After a push the entry at the old count is the key, every other entry is as it was. -/
theorem keyAt_pushKey (s : State) (v : Byte) (i : Nat) (h : s.feistel.fkn.toNat < 16) :
    keyAt (s.pushKey v).feistel i = if i = s.feistel.fkn.toNat then v else keyAt s.feistel i := by
  by_cases hi : i = s.feistel.fkn.toNat
  · subst hi
    simp [keyAt, State.pushKey, h]
  · have : s.feistel.fkn.toNat ≠ i := fun e => hi e.symm
    simp [keyAt, State.pushKey, hi, this]

end Sys2Proof.Machine
end

