-- ==== Sys2Proof/Laws/Lfsr.lean ====
section
/-! SUPPORT. Sequences in 16-bit registers and the LFSR's run (R12, R182, R183). -/

namespace Sys2Proof.Machine

/-- The mask of w has its 1s at the sequence indices below w. -/
theorem getMsbD_mask {w i : Nat} (hw : w ≤ 16) (hi : i < 16) : (mask w).getMsbD i = decide (i < w) := by
  have h : ∀ w < 17, ∀ i < 16, (mask w).getMsbD i = decide (i < w) := by decide
  exact h w (by omega) i hi

/-- There are no stray bits exactly when every sequence index from n on holds a 0. -/
theorem strayBits_eq_false {n : Nat} (hn : n ≤ 16) (v : Wide) :
    strayBits n v = false ↔ ∀ i, n ≤ i → v.getMsbD i = false := by
  simp only [strayBits, bne_eq_false_iff_eq]
  constructor
  · intro h i hi
    by_cases h16 : i < 16
    · have hbit := congrArg (fun x => BitVec.getMsbD x i) h
      simp only [BitVec.getMsbD_and, BitVec.getMsbD_not, getMsbD_mask hn h16] at hbit
      simpa [h16, Nat.not_lt.mpr hi] using hbit
    · simp [BitVec.getMsbD, h16]
  · intro h
    apply BitVec.eq_of_getMsbD_eq
    intro i hi
    simp only [BitVec.getMsbD_and, BitVec.getMsbD_not, getMsbD_mask hn hi]
    by_cases hni : n ≤ i
    · simp [h i hni]
    · simp [Nat.not_le.mp hni]

/-- Element i of a packed sequence (R12). -/
theorem getMsbD_packBits (bs : List Bool) {i : Nat} (hi : i < 16) :
    (packBits bs).getMsbD i = bs.getD i false := by
  induction bs generalizing i with
  | nil => simp [packBits]
  | cons b bs ih =>
    cases i with
    | zero => cases b <;> simp [packBits, BitVec.getMsbD_ushiftRight]
    | succ k =>
      have hb : ∀ k, k < 15 → (if b then 0x8000#16 else 0x0000#16).getMsbD (k + 1) = false := by
        cases b <;> decide
      simp only [packBits, BitVec.getMsbD_or, hb k (by omega), BitVec.getMsbD_ushiftRight, Bool.false_or]
      simp [hi, ih (show k < 16 by omega)]

theorem length_unpackBits (n : Nat) (v : Wide) : (unpackBits n v).length = n := by simp [unpackBits]

/-- A run of a + b steps is a run of a steps, then a run of b steps from where it left off (R183). -/
theorem lfsrRun_add (w : Nat) (lt : Wide) (d : Direction) (a b : Nat) (ls : Wide) :
    lfsrRun w lt d (a + b) ls =
      ((lfsrRun w lt d a ls).1 ++ (lfsrRun w lt d b (lfsrRun w lt d a ls).2).1,
        (lfsrRun w lt d b (lfsrRun w lt d a ls).2).2) := by
  induction a generalizing ls with
  | zero => simp [lfsrRun]
  | succ a ih =>
    have : a + 1 + b = (a + b) + 1 := by omega
    rw [this]
    simp [lfsrRun, ih]

@[simp] theorem length_lfsrRun (w : Nat) (lt : Wide) (d : Direction) (n : Nat) (ls : Wide) :
    (lfsrRun w lt d n ls).1.length = n := by
  induction n generalizing ls with
  | zero => rfl
  | succ n ih => simp [lfsrRun, ih]

end Sys2Proof.Machine
end

