-- ==== Sys2Proof/Laws/State.lean ====
section
/-! SUPPORT. What each update of the state does to each field: one lemma per field per update, true by rfl. -/

namespace Sys2Proof.Machine

@[simp] theorem State.setSb_sb (s : State) (v : Byte) : (s.setSb v).spn.sb = v := rfl
@[simp] theorem State.setSb_sk (s : State) (v : Byte) : (s.setSb v).spn.sk = s.spn.sk := rfl
@[simp] theorem State.setSb_srk (s : State) (v : Byte) : (s.setSb v).spn.srk = s.spn.srk := rfl
@[simp] theorem State.setSb_feistel (s : State) (v : Byte) : (s.setSb v).feistel = s.feistel := rfl
@[simp] theorem State.setSb_lfsr (s : State) (v : Byte) : (s.setSb v).lfsr = s.lfsr := rfl
@[simp] theorem State.setSb_pending (s : State) (v : Byte) : (s.setSb v).pending = s.pending := rfl
@[simp] theorem State.setSb_responses (s : State) (v : Byte) : (s.setSb v).responses = s.responses := rfl

@[simp] theorem State.setSk_sb (s : State) (v : Byte) : (s.setSk v).spn.sb = s.spn.sb := rfl
@[simp] theorem State.setSk_sk (s : State) (v : Byte) : (s.setSk v).spn.sk = v := rfl
@[simp] theorem State.setSk_srk (s : State) (v : Byte) : (s.setSk v).spn.srk = s.spn.srk := rfl
@[simp] theorem State.setSk_feistel (s : State) (v : Byte) : (s.setSk v).feistel = s.feistel := rfl
@[simp] theorem State.setSk_lfsr (s : State) (v : Byte) : (s.setSk v).lfsr = s.lfsr := rfl
@[simp] theorem State.setSk_pending (s : State) (v : Byte) : (s.setSk v).pending = s.pending := rfl
@[simp] theorem State.setSk_responses (s : State) (v : Byte) : (s.setSk v).responses = s.responses := rfl

@[simp] theorem State.setSrk_sb (s : State) (v : Byte) : (s.setSrk v).spn.sb = s.spn.sb := rfl
@[simp] theorem State.setSrk_sk (s : State) (v : Byte) : (s.setSrk v).spn.sk = s.spn.sk := rfl
@[simp] theorem State.setSrk_srk (s : State) (v : Byte) : (s.setSrk v).spn.srk = v := rfl
@[simp] theorem State.setSrk_feistel (s : State) (v : Byte) : (s.setSrk v).feistel = s.feistel := rfl
@[simp] theorem State.setSrk_lfsr (s : State) (v : Byte) : (s.setSrk v).lfsr = s.lfsr := rfl
@[simp] theorem State.setSrk_pending (s : State) (v : Byte) : (s.setSrk v).pending = s.pending := rfl
@[simp] theorem State.setSrk_responses (s : State) (v : Byte) : (s.setSrk v).responses = s.responses := rfl

@[simp] theorem State.setBlock_fl (s : State) (b : Byte × Byte) : (s.setBlock b).feistel.fl = b.1 := rfl
@[simp] theorem State.setBlock_fr (s : State) (b : Byte × Byte) : (s.setBlock b).feistel.fr = b.2 := rfl
@[simp] theorem State.setBlock_fk (s : State) (b : Byte × Byte) : (s.setBlock b).feistel.fk = s.feistel.fk := rfl
@[simp] theorem State.setBlock_fkn (s : State) (b : Byte × Byte) : (s.setBlock b).feistel.fkn = s.feistel.fkn := rfl
@[simp] theorem State.setBlock_spn (s : State) (b : Byte × Byte) : (s.setBlock b).spn = s.spn := rfl
@[simp] theorem State.setBlock_lfsr (s : State) (b : Byte × Byte) : (s.setBlock b).lfsr = s.lfsr := rfl
@[simp] theorem State.setBlock_pending (s : State) (b : Byte × Byte) : (s.setBlock b).pending = s.pending := rfl
@[simp] theorem State.setBlock_responses (s : State) (b : Byte × Byte) : (s.setBlock b).responses = s.responses := rfl

@[simp] theorem State.clearKeys_fl (s : State) : (s.clearKeys).feistel.fl = s.feistel.fl := rfl
@[simp] theorem State.clearKeys_fr (s : State) : (s.clearKeys).feistel.fr = s.feistel.fr := rfl
@[simp] theorem State.clearKeys_fk (s : State) : (s.clearKeys).feistel.fk = s.feistel.fk := rfl
@[simp] theorem State.clearKeys_fkn (s : State) : (s.clearKeys).feistel.fkn = 0#5 := rfl
@[simp] theorem State.clearKeys_spn (s : State) : (s.clearKeys).spn = s.spn := rfl
@[simp] theorem State.clearKeys_lfsr (s : State) : (s.clearKeys).lfsr = s.lfsr := rfl
@[simp] theorem State.clearKeys_pending (s : State) : (s.clearKeys).pending = s.pending := rfl
@[simp] theorem State.clearKeys_responses (s : State) : (s.clearKeys).responses = s.responses := rfl

@[simp] theorem State.pushKey_fl (s : State) (v : Byte) : (s.pushKey v).feistel.fl = s.feistel.fl := rfl
@[simp] theorem State.pushKey_fr (s : State) (v : Byte) : (s.pushKey v).feistel.fr = s.feistel.fr := rfl
@[simp] theorem State.pushKey_fk (s : State) (v : Byte) : (s.pushKey v).feistel.fk = s.feistel.fk.setIfInBounds s.feistel.fkn.toNat v := rfl
@[simp] theorem State.pushKey_fkn (s : State) (v : Byte) : (s.pushKey v).feistel.fkn = s.feistel.fkn + 1#5 := rfl
@[simp] theorem State.pushKey_spn (s : State) (v : Byte) : (s.pushKey v).spn = s.spn := rfl
@[simp] theorem State.pushKey_lfsr (s : State) (v : Byte) : (s.pushKey v).lfsr = s.lfsr := rfl
@[simp] theorem State.pushKey_pending (s : State) (v : Byte) : (s.pushKey v).pending = s.pending := rfl
@[simp] theorem State.pushKey_responses (s : State) (v : Byte) : (s.pushKey v).responses = s.responses := rfl

@[simp] theorem State.loadSeed_lw (s : State) (w : BitVec 5) (v : Wide) : (s.loadSeed w v).lfsr.lw = w := rfl
@[simp] theorem State.loadSeed_ldir (s : State) (w : BitVec 5) (v : Wide) : (s.loadSeed w v).lfsr.ldir = s.lfsr.ldir := rfl
@[simp] theorem State.loadSeed_lt (s : State) (w : BitVec 5) (v : Wide) : (s.loadSeed w v).lfsr.lt = s.lfsr.lt := rfl
@[simp] theorem State.loadSeed_lseed (s : State) (w : BitVec 5) (v : Wide) : (s.loadSeed w v).lfsr.lseed = v := rfl
@[simp] theorem State.loadSeed_ls (s : State) (w : BitVec 5) (v : Wide) : (s.loadSeed w v).lfsr.ls = v := rfl
@[simp] theorem State.loadSeed_spn (s : State) (w : BitVec 5) (v : Wide) : (s.loadSeed w v).spn = s.spn := rfl
@[simp] theorem State.loadSeed_feistel (s : State) (w : BitVec 5) (v : Wide) : (s.loadSeed w v).feistel = s.feistel := rfl
@[simp] theorem State.loadSeed_pending (s : State) (w : BitVec 5) (v : Wide) : (s.loadSeed w v).pending = s.pending := rfl
@[simp] theorem State.loadSeed_responses (s : State) (w : BitVec 5) (v : Wide) : (s.loadSeed w v).responses = s.responses := rfl

@[simp] theorem State.setTaps_lw (s : State) (v : Wide) : (s.setTaps v).lfsr.lw = s.lfsr.lw := rfl
@[simp] theorem State.setTaps_ldir (s : State) (v : Wide) : (s.setTaps v).lfsr.ldir = s.lfsr.ldir := rfl
@[simp] theorem State.setTaps_lt (s : State) (v : Wide) : (s.setTaps v).lfsr.lt = v := rfl
@[simp] theorem State.setTaps_lseed (s : State) (v : Wide) : (s.setTaps v).lfsr.lseed = s.lfsr.lseed := rfl
@[simp] theorem State.setTaps_ls (s : State) (v : Wide) : (s.setTaps v).lfsr.ls = s.lfsr.ls := rfl
@[simp] theorem State.setTaps_spn (s : State) (v : Wide) : (s.setTaps v).spn = s.spn := rfl
@[simp] theorem State.setTaps_feistel (s : State) (v : Wide) : (s.setTaps v).feistel = s.feistel := rfl
@[simp] theorem State.setTaps_pending (s : State) (v : Wide) : (s.setTaps v).pending = s.pending := rfl
@[simp] theorem State.setTaps_responses (s : State) (v : Wide) : (s.setTaps v).responses = s.responses := rfl

@[simp] theorem State.setDirection_lw (s : State) (d : BitVec 2) : (s.setDirection d).lfsr.lw = s.lfsr.lw := rfl
@[simp] theorem State.setDirection_ldir (s : State) (d : BitVec 2) : (s.setDirection d).lfsr.ldir = d := rfl
@[simp] theorem State.setDirection_lt (s : State) (d : BitVec 2) : (s.setDirection d).lfsr.lt = s.lfsr.lt := rfl
@[simp] theorem State.setDirection_lseed (s : State) (d : BitVec 2) : (s.setDirection d).lfsr.lseed = s.lfsr.lseed := rfl
@[simp] theorem State.setDirection_ls (s : State) (d : BitVec 2) : (s.setDirection d).lfsr.ls = s.lfsr.ls := rfl
@[simp] theorem State.setDirection_spn (s : State) (d : BitVec 2) : (s.setDirection d).spn = s.spn := rfl
@[simp] theorem State.setDirection_feistel (s : State) (d : BitVec 2) : (s.setDirection d).feistel = s.feistel := rfl
@[simp] theorem State.setDirection_pending (s : State) (d : BitVec 2) : (s.setDirection d).pending = s.pending := rfl
@[simp] theorem State.setDirection_responses (s : State) (d : BitVec 2) : (s.setDirection d).responses = s.responses := rfl

@[simp] theorem State.setLs_lw (s : State) (v : Wide) : (s.setLs v).lfsr.lw = s.lfsr.lw := rfl
@[simp] theorem State.setLs_ldir (s : State) (v : Wide) : (s.setLs v).lfsr.ldir = s.lfsr.ldir := rfl
@[simp] theorem State.setLs_lt (s : State) (v : Wide) : (s.setLs v).lfsr.lt = s.lfsr.lt := rfl
@[simp] theorem State.setLs_lseed (s : State) (v : Wide) : (s.setLs v).lfsr.lseed = s.lfsr.lseed := rfl
@[simp] theorem State.setLs_ls (s : State) (v : Wide) : (s.setLs v).lfsr.ls = v := rfl
@[simp] theorem State.setLs_spn (s : State) (v : Wide) : (s.setLs v).spn = s.spn := rfl
@[simp] theorem State.setLs_feistel (s : State) (v : Wide) : (s.setLs v).feistel = s.feistel := rfl
@[simp] theorem State.setLs_pending (s : State) (v : Wide) : (s.setLs v).pending = s.pending := rfl
@[simp] theorem State.setLs_responses (s : State) (v : Wide) : (s.setLs v).responses = s.responses := rfl

@[simp] theorem State.respond_responses (s : State) (r : Rsp) : (s.respond r).responses = s.responses ++ [r] := rfl
@[simp] theorem State.respond_spn (s : State) (r : Rsp) : (s.respond r).spn = s.spn := rfl
@[simp] theorem State.respond_feistel (s : State) (r : Rsp) : (s.respond r).feistel = s.feistel := rfl
@[simp] theorem State.respond_lfsr (s : State) (r : Rsp) : (s.respond r).lfsr = s.lfsr := rfl
@[simp] theorem State.respond_pending (s : State) (r : Rsp) : (s.respond r).pending = s.pending := rfl

@[simp] theorem State.present_pending (s : State) (w : Word) : (s.present w).pending = .command w :: s.pending := rfl
@[simp] theorem State.present_spn (s : State) (w : Word) : (s.present w).spn = s.spn := rfl
@[simp] theorem State.present_feistel (s : State) (w : Word) : (s.present w).feistel = s.feistel := rfl
@[simp] theorem State.present_lfsr (s : State) (w : Word) : (s.present w).lfsr = s.lfsr := rfl
@[simp] theorem State.present_responses (s : State) (w : Word) : (s.present w).responses = s.responses := rfl

end Sys2Proof.Machine
end

