-- ==== Sys2Proof/Laws/Ops.lean ====
section
/-! SUPPORT. What each shared operation can do, said once. -/

namespace Sys2Proof.Machine

open Host (Outcome)

@[simp] theorem reply_eq_next {φ ρ : Type} (d : Area) (s t : State) :
    (reply d s : Outcome State φ ρ) = .next t ↔ s.respond ⟨.ok, d⟩ = t := by
  simp [reply]

@[simp] theorem raise_eq_next {φ ρ : Type} (e : Status) (s t : State) :
    (raise e s : Outcome State φ ρ) = .next t ↔ s.respond ⟨e, 0#24⟩ = t := by
  simp [raise]

@[simp] theorem guarded_none {φ ρ : Type} (s : State) (k : Outcome State φ ρ) : guarded none s k = k := rfl

@[simp] theorem guarded_some {φ ρ : Type} (e : Status) (s : State) (k : Outcome State φ ρ) :
    guarded (some e) s k = raise e s := rfl

/-- A guarded command that answers has raised its error, or has passed its checks and gone on. -/
theorem guarded_cases {φ ρ : Type} {e : Option Status} {s t : State} {k : Outcome State φ ρ}
    (h : guarded e s k = .next t) :
    (∃ x, e = some x ∧ t = s.respond ⟨x, 0#24⟩) ∨ (e = none ∧ k = .next t) := by
  cases e with
  | none => exact .inr ⟨rfl, h⟩
  | some x => exact .inl ⟨x, rfl, ((raise_eq_next x s t).mp h).symm⟩

theorem takeInput_of_nil {s : State} (h : s.pending = []) : takeInput s = none := by
  simp [takeInput, h]

theorem takeInput_of_cons {s : State} {x : HostInput} {rest : List HostInput} (h : s.pending = x :: rest) :
    takeInput s = some (x, { s with pending := rest }) := by
  simp [takeInput, h]

@[simp] theorem takeInput_present (s : State) (w : Word) : takeInput (s.present w) = some (.command w, s) := rfl

/-- What every command's rule does with the port: it answers once, takes nothing from the host, and leaves the registers
alone when the answer is not Ok (R15, R215). -/
def AnswersOnce {φ ρ : Type} (s : State) (o : Outcome State φ ρ) : Prop :=
  ∃ t r, o = .next t ∧ t.pending = s.pending ∧ t.responses = s.responses ++ [r] ∧
    (r.status ≠ .ok → t = s.respond ⟨r.status, 0#24⟩)

/-- Completing from a state whose port is untouched answers once. -/
theorem reply_answersOnce {φ ρ : Type} {s u : State} (d : Area) (hp : u.pending = s.pending)
    (hr : u.responses = s.responses) : AnswersOnce s (reply d u : Outcome State φ ρ) :=
  ⟨u.respond ⟨.ok, d⟩, ⟨.ok, d⟩, rfl, hp, by simp [hr], fun h => absurd rfl h⟩

theorem raise_answersOnce {φ ρ : Type} (s : State) (e : Status) :
    AnswersOnce s (raise e s : Outcome State φ ρ) :=
  ⟨s.respond ⟨e, 0#24⟩, ⟨e, 0#24⟩, rfl, rfl, rfl, fun _ => rfl⟩

theorem guarded_answersOnce {φ ρ : Type} {s : State} (e : Option Status) {k : Outcome State φ ρ}
    (h : AnswersOnce s k) : AnswersOnce s (guarded e s k) := by
  cases e with
  | none => exact h
  | some x => exact raise_answersOnce s x

/-- The checks of LLDS pass exactly for a length of 1 to 16 and no stray bit (R171). -/
theorem seedError_eq_none (w : BitVec 5) (v : Wide) :
    seedError w v = none ↔ w.toNat ≤ 16 ∧ w ≠ 0#5 ∧ strayBits w.toNat v = false := by
  unfold seedError Config.lfsrWmax
  by_cases h1 : 16 < w.toNat
  · simp [h1]
  · by_cases h2 : w = 0#5 <;> simp [h1, h2]
    intro _
    omega

/-- The common checks pass exactly when a state is loaded, every tap is in range, and any step has a direction
(R176). -/
theorem steppingError_eq_none (l : Lfsr) (n : Nat) :
    steppingError l n = none ↔
      l.lw ≠ 0#5 ∧ strayBits l.lw.toNat l.lt = false ∧ (n = 0 ∨ directionOf l.ldir ≠ none) := by
  unfold steppingError
  by_cases h1 : l.lw = 0#5
  · simp [h1]
  · by_cases h2 : strayBits l.lw.toNat l.lt
    · simp [h1, h2]
    · simp only [h1, h2, if_false, ne_eq, not_false_eq_true, true_and]
      rcases Nat.eq_zero_or_pos n with h | h
      · simp [h]
      · have : n ≠ 0 := by omega
        simp [this, Nat.succ_le_of_lt h]

theorem streamError_eq_none (l : Lfsr) (n : Nat) (v : Wide) :
    streamError l n v = none ↔ strayBits n v = false ∧ steppingError l n = none := by
  unfold streamError
  cases strayBits n v <;> simp

theorem roundCountError_eq_none (f : Feistel) (n : Nat) : roundCountError f n = none ↔ n ≤ f.fkn.toNat := by
  simp [roundCountError]

end Sys2Proof.Machine
end

