-- ==== Sys2Proof/Laws/Organisation.lean ====
section
/-! SUPPORT. What the organised operations compute: at the model's own organisation the functions of the rules, by
definition; each command in those functions; and what running the next host input does (R9, R57, assumption 10). -/

namespace Sys2Proof.Machine

open Host (Outcome)

@[simp] theorem substituteIn_organisation (x : Byte) : substituteIn Config.organisation x = substitute x := rfl

@[simp] theorem invSubstituteIn_organisation (x : Byte) : invSubstituteIn Config.organisation x = invSubstitute x := rfl

@[simp] theorem roundEncryptIn_organisation (b k : Byte) :
    roundEncryptIn Config.organisation b k = roundEncrypt b k := rfl

@[simp] theorem roundDecryptIn_organisation (b k : Byte) :
    roundDecryptIn Config.organisation b k = roundDecrypt b k := rfl

@[simp] theorem spnEncryptIn_organisation (p k : Byte) : spnEncryptIn Config.organisation p k = spnEncrypt p k := rfl

@[simp] theorem spnDecryptIn_organisation (c k : Byte) : spnDecryptIn Config.organisation c k = spnDecrypt c k := rfl

@[simp] theorem feistelEncryptIn_organisation (b : Byte × Byte) (keys : List Byte) :
    feistelEncryptIn Config.organisation b keys = feistelEncrypt b keys := rfl

@[simp] theorem feistelDecryptIn_organisation (b : Byte × Byte) (keys : List Byte) :
    feistelDecryptIn Config.organisation b keys = feistelDecrypt b keys := rfl

/-- Iterated steps in a direction are the run of R183, its output bits packed. -/
theorem lfsrAdvanceBy_serial {l : Lfsr} {d : Direction} (h : directionOf l.ldir = some d) (n : Nat) :
    lfsrAdvanceBy .serial l n =
      (packBits (lfsrRun l.lw.toNat l.lt d n l.ls).1, (lfsrRun l.lw.toNat l.lt d n l.ls).2) := by
  simp only [lfsrAdvanceBy, h, lfsrRunBy]

/-- Without a direction nothing is shifted, in any organisation. -/
theorem lfsrAdvanceBy_of_no_direction {l : Lfsr} (h : directionOf l.ldir = none) (m : Config.LfsrShiftMode) (n : Nat) :
    lfsrAdvanceBy m l n = (0#16, l.ls) := by
  simp only [lfsrAdvanceBy, h]

/-! Each command exec runs, in the functions of its rule. -/

theorem execSsub_eq (s : State) : execSsub s = replySb (s.setSb (substitute s.spn.sb)) := rfl

theorem execSisub_eq (s : State) : execSisub s = replySb (s.setSb (invSubstitute s.spn.sb)) := rfl

theorem execSrenc_eq (s : State) : execSrenc s = replySb (s.setSb (roundEncrypt s.spn.sb s.spn.srk)) := rfl

theorem execSrdec_eq (s : State) : execSrdec s = replySb (s.setSb (roundDecrypt s.spn.sb s.spn.srk)) := rfl

theorem execSenc_eq (s : State) : execSenc s = replySb (s.setSb (spnEncrypt s.spn.sb s.spn.sk)) := rfl

theorem execSdec_eq (s : State) : execSdec s = replySb (s.setSb (spnDecrypt s.spn.sb s.spn.sk)) := rfl

theorem execFrnd_eq (k : Byte) (s : State) :
    execFrnd k s = replyBlock (s.setBlock (feistelRound (blockOf s.feistel) k)) := rfl

theorem execFirnd_eq (k : Byte) (s : State) :
    execFirnd k s = replyBlock (s.setBlock (feistelInvRound (blockOf s.feistel) k)) := rfl

theorem execFenc_eq (s : State) :
    execFenc s =
      replyBlock (s.setBlock (feistelEncrypt (blockOf s.feistel) (keysBelow s.feistel s.feistel.fkn.toNat))) := rfl

theorem execFencn_eq (n : BitVec 5) (s : State) :
    execFencn n s = guarded (roundCountError s.feistel n.toNat) s
      (replyBlock (s.setBlock (feistelEncrypt (blockOf s.feistel) (keysBelow s.feistel n.toNat)))) := rfl

theorem execFdec_eq (s : State) :
    execFdec s =
      replyBlock (s.setBlock (feistelDecrypt (blockOf s.feistel) (keysBelow s.feistel s.feistel.fkn.toNat))) := rfl

theorem execFdecn_eq (n : BitVec 5) (s : State) :
    execFdecn n s = guarded (roundCountError s.feistel n.toNat) s
      (replyBlock (s.setBlock (feistelDecrypt (blockOf s.feistel) (keysBelow s.feistel n.toNat)))) := rfl

theorem execLgen_eq (n : BitVec 5) (s : State) :
    execLgen n s = if n.toNat ≤ 16 then guarded (steppingError s.lfsr n.toNat) s (advance .serial n.toNat 0#16 s)
      else execIllegal s := rfl

theorem execLenc_eq (n : BitVec 5) (v : Wide) (s : State) :
    execLenc n v s = if n.toNat ≤ 16 then guarded (streamError s.lfsr n.toNat v) s (advance .serial n.toNat v s)
      else execIllegal s := rfl

/-- Advancing in a direction answers the data XOR the packed output bits of the run, and leaves the run's last state. -/
theorem advance_serial {s : State} {d : Direction} (h : directionOf s.lfsr.ldir = some d) (n : Nat) (v : Wide) :
    advance .serial n v s =
      reply (zext24 (v ^^^ packBits (lfsrRun s.lfsr.lw.toNat s.lfsr.lt d n s.lfsr.ls).1))
        (s.setLs (lfsrRun s.lfsr.lw.toNat s.lfsr.lt d n s.lfsr.ls).2) := by
  simp only [advance, lfsrAdvanceBy_serial h]

/-- Without a direction the data is answered as it is, and LS stays. -/
theorem advance_of_no_direction {s : State} (h : directionOf s.lfsr.ldir = none) (m : Config.LfsrShiftMode) (n : Nat)
    (v : Wide) : advance m n v s = reply (zext24 v) (s.setLs s.lfsr.ls) := by
  simp only [advance, lfsrAdvanceBy_of_no_direction h, BitVec.xor_zero]

/-- A stage past the last key passes the halves through. -/
theorem roundStage_of_length_le {round : Byte × Byte → Byte → Byte × Byte} {keys : List Byte} {j : Nat}
    (h : keys.length ≤ j) (b : Byte × Byte) : roundStage round keys b j = b := by
  simp only [roundStage, List.getElem?_eq_none h]

theorem roundStage_of_lt {round : Byte × Byte → Byte → Byte × Byte} {keys : List Byte} {j : Nat}
    (h : j < keys.length) (b : Byte × Byte) : roundStage round keys b j = round b keys[j] := by
  simp only [roundStage, List.getElem?_eq_getElem h]

/-- With nothing pending CORE waits. -/
theorem runNext_of_nil (run : Instr → State → Outcome State Fault Refusal) {s : State} (h : s.pending = []) :
    runNext run s = idle s := by
  simp only [runNext, takeInput_of_nil h]

/-- The reset event is taken and run. -/
theorem runNext_of_reset (run : Instr → State → Outcome State Fault Refusal) {s : State} {rest : List HostInput}
    (h : s.pending = .reset :: rest) : runNext run s = resetEvent { s with pending := rest } := by
  simp only [runNext, takeInput_of_cons h]

/-- A word that decodes is taken and run. -/
theorem runNext_of_command (run : Instr → State → Outcome State Fault Refusal) {s : State} {w : Word} {i : Instr}
    {rest : List HostInput} (h : s.pending = .command w :: rest) (hd : decode w = .ok i) :
    runNext run s = run i { s with pending := rest } := by
  simp only [runNext, takeInput_of_cons h, hd]

/-- A word that does not decode is taken and answered as illegal. -/
theorem runNext_of_illegal (run : Instr → State → Outcome State Fault Refusal) {s : State} {w : Word} {e : DecodeError}
    {rest : List HostInput} (h : s.pending = .command w :: rest) (hd : decode w = .error e) :
    runNext run s = execIllegal { s with pending := rest } := by
  simp only [runNext, takeInput_of_cons h, hd]

end Sys2Proof.Machine
end

