-- ==== Sys2Proof/Laws/PerInstr.lean ====
section
/-! SUPPORT. What holds of every command, one lemma per constructor: its word has its row's opcode, and its operand area
has a 0 in every must-be-zero bit of its row's format (R71, R75). -/

namespace Sys2Proof.Laws

/-- The command's opcode has a row, and the command's word keeps that row's must-be-zero bits 0. -/
def EncodeForm.Statement (i : Instr) : Prop :=
  ∃ r, rowOf (opcodeOf (encode i)) = some r ∧ r.op = opcode i ∧ r.format.mbz &&& areaOf (encode i) = 0#24

theorem EncodeForm.of_area {i : Instr} {r : OpcodeRow} (h : rowOf (opcode i) = some r) (ho : r.op = opcode i)
    (hb : ∀ k, k < 24 → (r.format.mbz.getLsbD k && (operandArea i).getLsbD k) = false) :
    EncodeForm.Statement i := by
  refine ⟨r, by simpa using h, ho, ?_⟩
  apply BitVec.eq_of_getLsbD_eq
  intro k hk
  simpa using hb k hk

theorem EncodeForm.nop : EncodeForm.Statement .nop := by
  refine EncodeForm.of_area rfl rfl ?_
  decide

theorem EncodeForm.sldb (v : Byte) : EncodeForm.Statement (.sldb v) := by
  refine EncodeForm.of_area rfl rfl ?_
  intro k hk
  simp only [operandArea, Format.mbz, BitVec.getLsbD_append]
  interval_cases k <;> simp

theorem EncodeForm.sldk (v : Byte) : EncodeForm.Statement (.sldk v) := by
  refine EncodeForm.of_area rfl rfl ?_
  intro k hk
  simp only [operandArea, Format.mbz, BitVec.getLsbD_append]
  interval_cases k <;> simp

theorem EncodeForm.sldrk (v : Byte) : EncodeForm.Statement (.sldrk v) := by
  refine EncodeForm.of_area rfl rfl ?_
  intro k hk
  simp only [operandArea, Format.mbz, BitVec.getLsbD_append]
  interval_cases k <;> simp

theorem EncodeForm.skder (h : BitVec 1) : EncodeForm.Statement (.skder h) := by
  refine EncodeForm.of_area rfl rfl ?_
  intro k hk
  simp only [operandArea, Format.mbz, BitVec.getLsbD_append]
  interval_cases k <;> simp

theorem EncodeForm.sxor : EncodeForm.Statement .sxor := by
  refine EncodeForm.of_area rfl rfl ?_
  decide

theorem EncodeForm.ssub : EncodeForm.Statement .ssub := by
  refine EncodeForm.of_area rfl rfl ?_
  decide

theorem EncodeForm.sisub : EncodeForm.Statement .sisub := by
  refine EncodeForm.of_area rfl rfl ?_
  decide

theorem EncodeForm.sperm : EncodeForm.Statement .sperm := by
  refine EncodeForm.of_area rfl rfl ?_
  decide

theorem EncodeForm.siperm : EncodeForm.Statement .siperm := by
  refine EncodeForm.of_area rfl rfl ?_
  decide

theorem EncodeForm.srenc : EncodeForm.Statement .srenc := by
  refine EncodeForm.of_area rfl rfl ?_
  decide

theorem EncodeForm.srdec : EncodeForm.Statement .srdec := by
  refine EncodeForm.of_area rfl rfl ?_
  decide

theorem EncodeForm.senc : EncodeForm.Statement .senc := by
  refine EncodeForm.of_area rfl rfl ?_
  decide

theorem EncodeForm.sdec : EncodeForm.Statement .sdec := by
  refine EncodeForm.of_area rfl rfl ?_
  decide

theorem EncodeForm.srd (sel : BitVec 2) : EncodeForm.Statement (.srd sel) := by
  refine EncodeForm.of_area rfl rfl ?_
  intro k hk
  simp only [operandArea, Format.mbz, BitVec.getLsbD_append]
  interval_cases k <;> simp

theorem EncodeForm.fldb (v : Wide) : EncodeForm.Statement (.fldb v) := by
  refine EncodeForm.of_area rfl rfl ?_
  intro k hk
  simp only [operandArea, Format.mbz, BitVec.getLsbD_append]
  interval_cases k <;> simp

theorem EncodeForm.fkclr : EncodeForm.Statement .fkclr := by
  refine EncodeForm.of_area rfl rfl ?_
  decide

theorem EncodeForm.fkpush (v : Byte) : EncodeForm.Statement (.fkpush v) := by
  refine EncodeForm.of_area rfl rfl ?_
  intro k hk
  simp only [operandArea, Format.mbz, BitVec.getLsbD_append]
  interval_cases k <;> simp

theorem EncodeForm.ff (a b : Byte) : EncodeForm.Statement (.ff a b) := by
  refine EncodeForm.of_area rfl rfl ?_
  intro k hk
  simp only [operandArea, Format.mbz, BitVec.getLsbD_append]
  interval_cases k <;> simp

theorem EncodeForm.frnd (k : Byte) : EncodeForm.Statement (.frnd k) := by
  refine EncodeForm.of_area rfl rfl ?_
  intro k hk
  simp only [operandArea, Format.mbz, BitVec.getLsbD_append]
  interval_cases k <;> simp

theorem EncodeForm.firnd (k : Byte) : EncodeForm.Statement (.firnd k) := by
  refine EncodeForm.of_area rfl rfl ?_
  intro k hk
  simp only [operandArea, Format.mbz, BitVec.getLsbD_append]
  interval_cases k <;> simp

theorem EncodeForm.fenc : EncodeForm.Statement .fenc := by
  refine EncodeForm.of_area rfl rfl ?_
  decide

theorem EncodeForm.fencn (n : BitVec 5) : EncodeForm.Statement (.fencn n) := by
  refine EncodeForm.of_area rfl rfl ?_
  intro k hk
  simp only [operandArea, Format.mbz, BitVec.getLsbD_append]
  interval_cases k <;> simp

theorem EncodeForm.fdec : EncodeForm.Statement .fdec := by
  refine EncodeForm.of_area rfl rfl ?_
  decide

theorem EncodeForm.fdecn (n : BitVec 5) : EncodeForm.Statement (.fdecn n) := by
  refine EncodeForm.of_area rfl rfl ?_
  intro k hk
  simp only [operandArea, Format.mbz, BitVec.getLsbD_append]
  interval_cases k <;> simp

theorem EncodeForm.frd (sel : BitVec 2) (idx : BitVec 4) : EncodeForm.Statement (.frd sel idx) := by
  refine EncodeForm.of_area rfl rfl ?_
  intro k hk
  simp only [operandArea, Format.mbz, BitVec.getLsbD_append]
  interval_cases k <;> simp

theorem EncodeForm.llds (w : BitVec 5) (v : Wide) : EncodeForm.Statement (.llds w v) := by
  refine EncodeForm.of_area rfl rfl ?_
  intro k hk
  simp only [operandArea, Format.mbz, BitVec.getLsbD_append]
  interval_cases k <;> simp

theorem EncodeForm.lldt (v : Wide) : EncodeForm.Statement (.lldt v) := by
  refine EncodeForm.of_area rfl rfl ?_
  intro k hk
  simp only [operandArea, Format.mbz, BitVec.getLsbD_append]
  interval_cases k <;> simp

theorem EncodeForm.lsetd (d : BitVec 2) : EncodeForm.Statement (.lsetd d) := by
  refine EncodeForm.of_area rfl rfl ?_
  intro k hk
  simp only [operandArea, Format.mbz, BitVec.getLsbD_append]
  interval_cases k <;> simp

theorem EncodeForm.lrst : EncodeForm.Statement .lrst := by
  refine EncodeForm.of_area rfl rfl ?_
  decide

theorem EncodeForm.lstep : EncodeForm.Statement .lstep := by
  refine EncodeForm.of_area rfl rfl ?_
  decide

theorem EncodeForm.lgen (n : BitVec 5) : EncodeForm.Statement (.lgen n) := by
  refine EncodeForm.of_area rfl rfl ?_
  intro k hk
  simp only [operandArea, Format.mbz, BitVec.getLsbD_append]
  interval_cases k <;> simp

theorem EncodeForm.lenc (n : BitVec 5) (v : Wide) : EncodeForm.Statement (.lenc n v) := by
  refine EncodeForm.of_area rfl rfl ?_
  intro k hk
  simp only [operandArea, Format.mbz, BitVec.getLsbD_append]
  interval_cases k <;> simp

theorem EncodeForm.lrd (sel : BitVec 2) : EncodeForm.Statement (.lrd sel) := by
  refine EncodeForm.of_area rfl rfl ?_
  intro k hk
  simp only [operandArea, Format.mbz, BitVec.getLsbD_append]
  interval_cases k <;> simp

end Sys2Proof.Laws
end

