-- ==== Sys2Proof/Laws/Pseudo.lean ====
section
/-! SUPPORT. What a stream call's result can be (R84, assumption 17). -/

namespace Sys2Proof.Machine

/-- Without an error the result is the concatenated bits. -/
theorem streamResult_of_ok (is : List Instr) {rs : List Rsp} (h : ∀ r ∈ rs, r.status = .ok) :
    streamResult is rs = .ok (streamConcat is rs) := by
  have hn : rs.find? (fun r => r.status ≠ .ok) = none := by simpa using h
  simp only [streamResult, hn]

/-- A result of bits is the concatenation, and no response was an error. -/
theorem streamResult_eq_ok {is : List Instr} {rs : List Rsp} {bits : List Bool} (h : streamResult is rs = .ok bits) :
    (∀ r ∈ rs, r.status = .ok) ∧ bits = streamConcat is rs := by
  unfold streamResult at h
  split at h
  · cases h
  · rename_i hn
    cases h
    exact ⟨by simpa using hn, rfl⟩

/-- The first error among the responses is the result. -/
theorem streamResult_of_error (is : List Instr) {rs : List Rsp} {r : Rsp} (h : ∀ x ∈ rs, x.status = .ok)
    (hr : r.status ≠ .ok) : streamResult is (rs ++ [r]) = .error r.status := by
  have hn : rs.find? (fun r => r.status ≠ .ok) = none := by simpa using h
  simp [streamResult, List.find?_append, hr, show rs.find? (fun r => !decide (r.status = .ok)) = none by simpa using h]

/-- The bits of one more response follow. -/
theorem streamConcat_cons (i : Instr) (is : List Instr) (r : Rsp) (rs : List Rsp) :
    streamConcat (i :: is) (r :: rs) = streamBits i r ++ streamConcat is rs := rfl

end Sys2Proof.Machine
end

