-- ==== Sys2Proof/Laws/Sequence.lean ====
section
/-! SUPPORT. The register step of the LFSR is the step on the bit sequence the register holds (R175, R182, R183), and the
readings of stray bits and legal states the statements use. -/

namespace Sys2Proof.Machine

/-- A mask above 16 places keeps every bit, so nothing is stray. -/
theorem strayBits_of_gt {n : Nat} (h : 16 < n) (v : Wide) : strayBits n v = false := by
  have hm : mask n = 0xFFFF#16 := by simp [mask, show 16 - n = 0 by omega]
  simp [strayBits, hm]

/-- The check on the register finds a stray 1 exactly when there is one. -/
theorem strayBits_iff (n : Nat) (v : Wide) : strayBits n v = true ↔ HasStray n v := by
  by_cases hn : n ≤ 16
  · rw [← not_iff_not, Bool.not_eq_true, strayBits_eq_false hn]
    constructor
    · rintro h ⟨i, h1, -, h3⟩
      rw [h i h1] at h3
      cases h3
    · intro h i hi
      by_cases h16 : i < 16
      · cases hb : v.getMsbD i
        · rfl
        · exact absurd ⟨i, hi, h16, hb⟩ h
      · simp [BitVec.getMsbD, h16]
  · rw [strayBits_of_gt (Nat.not_le.mp hn)]
    constructor
    · intro h
      cases h
    · rintro ⟨i, h1, h2, -⟩
      omega

theorem strayBits_false_iff (n : Nat) (v : Wide) : strayBits n v = false ↔ ¬ HasStray n v := by
  rw [← strayBits_iff, Bool.not_eq_true]

/-- A state is legal when its counts are in range and neither LSEED nor LS has a stray bit. -/
theorem legal_of_checks {s : State} (hk : s.feistel.fkn.toNat ≤ 16) (hw : s.lfsr.lw.toNat ≤ 16)
    (hseed : strayBits s.lfsr.lw.toNat s.lfsr.lseed = false)
    (hls : strayBits s.lfsr.lw.toNat s.lfsr.ls = false) : s.Legal :=
  ⟨hk, hw, fun i hi => ⟨(strayBits_eq_false hw _).mp hseed i hi, (strayBits_eq_false hw _).mp hls i hi⟩⟩

/-- The parity of a masked value, read from the most significant bit on. -/
theorem feedback_eq_foldl (lt ls : Wide) :
    feedback lt ls = (List.range 16).foldl (fun acc i => acc ^^ (ls.getMsbD i && lt.getMsbD i)) false := by
  simp only [feedback, parity, List.range, List.range.loop, List.foldl, BitVec.getLsbD_and, BitVec.getMsbD,
    Nat.reduceLT, decide_true, Bool.true_and, Nat.reduceSub]
  have : Std.Commutative (α := Bool) Bool.xor := ⟨Bool.xor_comm⟩
  ac_rfl

theorem foldl_xor_filter (p f : Nat → Bool) (l : List Nat) (a : Bool) :
    (l.filter p).foldl (fun acc i => acc ^^ f i) a = l.foldl (fun acc i => acc ^^ (f i && p i)) a := by
  induction l generalizing a with
  | nil => rfl
  | cons x xs ih => by_cases h : p x <;> simp [h, ih]

theorem getD_unpackBits {w t : Nat} (h : t < w) (v : Wide) : (unpackBits w v).getD t false = v.getMsbD t := by
  simp [unpackBits, h]

/-- With every tap in range the feedback bit is the XOR of the selected state elements (R182). -/
theorem feedback_eq_seqFeedback {w : Nat} {lt : Wide} (h : ¬ HasStray w lt) (ls : Wide) :
    feedback lt ls = seqFeedback (tapsOf lt) (unpackBits w ls) := by
  rw [feedback_eq_foldl, seqFeedback, tapsOf, foldl_xor_filter]
  apply List.foldl_ext
  intro a i hi
  by_cases hw : i < w
  · rw [getD_unpackBits hw]
  · have : lt.getMsbD i = false := by
      by_contra hc
      exact h ⟨i, by omega, by simpa using hi, by simpa using hc⟩
    simp [this]

theorem getMsbD_bitAt (b : Bool) {k i : Nat} (hk : k < 16) (hi : i < 16) :
    (bitAt b k).getMsbD i = (b && decide (i = 15 - k)) := by
  have h : ∀ k < 16, ∀ i < 16, ∀ b, (bitAt b k).getMsbD i = (b && decide (i = 15 - k)) := by decide
  exact h k hk i hi b

/-- Each element of the state a step leaves (R175), read from the register layout of R182. -/
theorem getMsbD_lfsrStep {w : Nat} (hw1 : 1 ≤ w) (hw : w ≤ 16) (lt ls : Wide) (d : Direction) {i : Nat} (hi : i < 16)
    (hz : ∀ i, w ≤ i → ls.getMsbD i = false) :
    (lfsrStep w lt d ls).2.getMsbD i = match d with
      | .right => if i = 0 then feedback lt ls else decide (i < w) && ls.getMsbD (i - 1)
      | .left => if i = w - 1 then feedback lt ls else decide (i < w) && ls.getMsbD (i + 1) := by
  cases d with
  | right =>
    simp only [lfsrStep, BitVec.getMsbD_and, BitVec.getMsbD_or, getMsbD_mask hw hi,
      getMsbD_bitAt _ (show 15 < 16 by omega) hi, BitVec.getMsbD_ushiftRight]
    by_cases h0 : i = 0
    · subst h0
      simp [show 0 < w by omega]
    · simp [h0, hi, Bool.and_comm]
  | left =>
    simp only [lfsrStep, BitVec.getMsbD_and, BitVec.getMsbD_or, getMsbD_mask hw hi,
      getMsbD_bitAt _ (show 16 - w < 16 by omega) hi, BitVec.getMsbD_shiftLeft, show 15 - (16 - w) = w - 1 by omega]
    by_cases h0 : i = w - 1
    · subst h0
      have hl : ls.getMsbD (w - 1 + 1) = false := hz _ (by omega)
      simp [hl]
    · simp [h0, Bool.and_comm]

/-- A step leaves the places at and beyond W zero (R182). -/
theorem lfsrStep_zero_above {w : Nat} (hw1 : 1 ≤ w) (hw : w ≤ 16) (lt ls : Wide) (d : Direction)
    (hz : ∀ i, w ≤ i → ls.getMsbD i = false) : ∀ i, w ≤ i → (lfsrStep w lt d ls).2.getMsbD i = false := by
  intro i hi
  by_cases h16 : i < 16
  · rw [getMsbD_lfsrStep hw1 hw lt ls d h16 hz]
    cases d
    · simp [show i ≠ 0 by omega]
      intro
      omega
    · simp [show i ≠ w - 1 by omega]
      intro
      omega
  · simp [BitVec.getMsbD, h16]

/-- R182 is R175 on the register layout: the same output bit, and the new sequence in the register. -/
theorem lfsrStep_eq_seqStep {w : Nat} (hw1 : 1 ≤ w) (hw : w ≤ 16) (lt ls : Wide) (d : Direction)
    (hz : ∀ i, w ≤ i → ls.getMsbD i = false) (ht : ¬ HasStray w lt) :
    ((lfsrStep w lt d ls).1, unpackBits w (lfsrStep w lt d ls).2) = seqStep (tapsOf lt) d (unpackBits w ls) := by
  have hl : (unpackBits w ls).length = w := length_unpackBits _ _
  cases d with
  | right =>
    simp only [seqStep, ← feedback_eq_seqFeedback ht]
    refine Prod.ext ?_ ?_
    · simp only [lfsrStep]
      rw [List.getLastD_eq_getLast?, List.getLast?_eq_getElem?, hl, List.getElem?_eq_getElem (by omega)]
      simp [unpackBits, BitVec.getMsbD, show w - 1 < 16 by omega, show 15 - (w - 1) = 16 - w by omega]
    · apply List.ext_getElem
      · simp [length_unpackBits]
        omega
      · intro i h1 h2
        have hi : i < w := by simpa [length_unpackBits] using h1
        simp only [unpackBits, List.getElem_map, List.getElem_range]
        rw [getMsbD_lfsrStep hw1 hw lt ls .right (show i < 16 by omega) hz]
        cases i with
        | zero => simp
        | succ k => simp [hi]
  | left =>
    simp only [seqStep, ← feedback_eq_seqFeedback ht]
    refine Prod.ext ?_ ?_
    · simp only [lfsrStep]
      obtain ⟨w, rfl⟩ : ∃ k, w = k + 1 := ⟨w - 1, by omega⟩
      simp [unpackBits, List.range_succ_eq_map, BitVec.getMsbD]
    · apply List.ext_getElem
      · simp [length_unpackBits]
        omega
      · intro i h1 h2
        have hi : i < w := by simpa [length_unpackBits] using h1
        simp only [unpackBits, List.getElem_map, List.getElem_range]
        rw [getMsbD_lfsrStep hw1 hw lt ls .left (show i < 16 by omega) hz]
        by_cases h0 : i = w - 1
        · subst h0
          simp
        · simp [h0, hi, show i < w - 1 by omega]

/-- The same for n steps, and the places at and beyond W stay zero. -/
theorem lfsrRun_eq_seqRun {w : Nat} (hw1 : 1 ≤ w) (hw : w ≤ 16) (lt : Wide) (d : Direction) (ht : ¬ HasStray w lt)
    (n : Nat) (ls : Wide) (hz : ∀ i, w ≤ i → ls.getMsbD i = false) :
    (∀ i, w ≤ i → (lfsrRun w lt d n ls).2.getMsbD i = false) ∧
      ((lfsrRun w lt d n ls).1, unpackBits w (lfsrRun w lt d n ls).2) = seqRun (tapsOf lt) d n (unpackBits w ls) := by
  induction n generalizing ls with
  | zero => exact ⟨hz, rfl⟩
  | succ n ih =>
    have hs := lfsrStep_eq_seqStep hw1 hw lt ls d hz ht
    obtain ⟨h1, h2⟩ := ih _ (lfsrStep_zero_above hw1 hw lt ls d hz)
    refine ⟨h1, ?_⟩
    simp only [lfsrRun, seqRun, ← hs, ← h2]

end Sys2Proof.Machine
end

