-- ==== Sys2Proof/Laws/Spn.lean ====
section
/-! SUPPORT. The functions of the SPN engine undo each other (R112, R121). -/

namespace Sys2Proof.Machine

theorem invSbox_sbox (g : BitVec 2) : invSbox (sbox g) = g := by revert g; decide

theorem sbox_invSbox (g : BitVec 2) : sbox (invSbox g) = g := by revert g; decide

/-- A block is its four groups. -/
theorem groups_append (x : Byte) :
    x.extractLsb' 6 2 ++ x.extractLsb' 4 2 ++ x.extractLsb' 2 2 ++ x.extractLsb' 0 2 = x := by
  apply BitVec.eq_of_getLsbD_eq
  intro i hi
  simp only [BitVec.getLsbD_append, BitVec.getLsbD_extractLsb']
  interval_cases i <;> simp

/-- The groups of a block given group by group. -/
theorem extract_groups (a b c d : BitVec 2) :
    (a ++ b ++ c ++ d).extractLsb' 6 2 = a ∧ (a ++ b ++ c ++ d).extractLsb' 4 2 = b ∧
      (a ++ b ++ c ++ d).extractLsb' 2 2 = c ∧ (a ++ b ++ c ++ d).extractLsb' 0 2 = d := by
  revert a b c d
  decide

/-- Tables that undo each other on a group undo each other on a block. -/
theorem mapGroups_mapGroups {t u : BitVec 2 → BitVec 2} (h : ∀ g, u (t g) = g) (x : Byte) :
    mapGroups u (mapGroups t x) = x := by
  obtain ⟨h1, h2, h3, h4⟩ := extract_groups (t (x.extractLsb' 6 2)) (t (x.extractLsb' 4 2))
    (t (x.extractLsb' 2 2)) (t (x.extractLsb' 0 2))
  unfold mapGroups
  rw [h1, h2, h3, h4, h, h, h, h]
  exact groups_append x

theorem invSubstitute_substitute (x : Byte) : invSubstitute (substitute x) = x :=
  mapGroups_mapGroups invSbox_sbox x

theorem substitute_invSubstitute (x : Byte) : substitute (invSubstitute x) = x :=
  mapGroups_mapGroups sbox_invSbox x

theorem halves_append (x : Byte) : firstHalf x ++ secondHalf x = x := by
  apply BitVec.eq_of_getLsbD_eq
  intro i hi
  simp only [firstHalf, secondHalf, BitVec.getLsbD_append, BitVec.getLsbD_extractLsb']
  interval_cases i <;> simp

theorem firstHalf_append (a b : BitVec 4) : firstHalf (a ++ b) = a := by revert a b; decide

theorem secondHalf_append (a b : BitVec 4) : secondHalf (a ++ b) = b := by revert a b; decide

theorem permuteHalf_undo (v : BitVec 4) : permuteHalf 1 2 0 3 (permuteHalf 2 0 1 3 v) = v := by revert v; decide

theorem permuteHalf_redo (v : BitVec 4) : permuteHalf 2 0 1 3 (permuteHalf 1 2 0 3 v) = v := by revert v; decide

theorem invPermute_permute (x : Byte) : invPermute (permute x) = x := by
  simp only [invPermute, permute, firstHalf_append, secondHalf_append, permuteHalf_undo, halves_append]

theorem permute_invPermute (x : Byte) : permute (invPermute x) = x := by
  simp only [invPermute, permute, firstHalf_append, secondHalf_append, permuteHalf_redo, halves_append]

theorem roundDecrypt_roundEncrypt (b k : Byte) : roundDecrypt (roundEncrypt b k) k = b := by
  simp [roundDecrypt, roundEncrypt, invPermute_permute, invSubstitute_substitute]

theorem roundEncrypt_roundDecrypt (b k : Byte) : roundEncrypt (roundDecrypt b k) k = b := by
  simp [roundDecrypt, roundEncrypt, permute_invPermute, substitute_invSubstitute]

end Sys2Proof.Machine
end

