-- ==== Sys2Proof/Tests/Slice0.lean ====
section
/-! SUPPORT. Tests of the model: well-formedness, decoding of words written out from spec/30_encoding.md, one step of each
command with the values of spec/95_test_vectors.md and of the instruction rules' examples, and a witness for the
hypotheses of every statement that has any. Every expected value is the spec's. -/

namespace Sys2Proof.Tests

open Sys2Proof Sys2Proof.Machine Host

/-! ### Well-formedness (R80) -/

theorem test_wellFormed_refuses_srd_3 : (Instr.srd 3#2).wellFormed = false := by decide
theorem test_wellFormed_refuses_frd_3 : (Instr.frd 3#2 0#4).wellFormed = false := by decide
theorem test_wellFormed_refuses_frd_block_with_index : (Instr.frd 0#2 1#4).wellFormed = false := by decide
theorem test_wellFormed_refuses_frd_count_with_index : (Instr.frd 1#2 15#4).wellFormed = false := by decide
theorem test_wellFormed_refuses_lgen_17 : (Instr.lgen 17#5).wellFormed = false := by decide
theorem test_wellFormed_refuses_lenc_17 : (Instr.lenc 17#5 0x0000#16).wellFormed = false := by decide

/-- R80, its last sentence: these are legal encodings, whether or not they succeed. -/
theorem test_wellFormed_takes_what_R80_allows :
    (Instr.lsetd 3#2).wellFormed = true ∧ (Instr.fencn 31#5).wellFormed = true ∧
      (Instr.fdecn 31#5).wellFormed = true ∧ (Instr.llds 31#5 0xFFFF#16).wellFormed = true ∧
      (Instr.frd 2#2 15#4).wellFormed = true ∧ (Instr.lgen 16#5).wellFormed = true ∧
      (Instr.lenc 16#5 0xFFFF#16).wellFormed = true ∧ (Instr.srd 2#2).wellFormed = true := by decide

/-! ### Decoding: words written out from the spec -/

/-- One word of each family, field by field as R70, R71 and R75 lay it out: opcode, must-be-zero bits, fields. -/
theorem test_decode_written_bit_by_bit :
    decode (0b00000000#8 ++ 0b000000000000000000000000#24) = .ok .nop ∧
      decode (0b00010000#8 ++ 0b0000000000000000#16 ++ 0b01101101#8) = .ok (.sldb 0b01101101#8) ∧
      decode (0b00010011#8 ++ 0b00000000000000000000000#23 ++ 0b1#1) = .ok (.skder 1#1) ∧
      decode (0b00100011#8 ++ 0b00000000#8 ++ 0b00110100#8 ++ 0b00001111#8) = .ok (.ff 0x34#8 0x0F#8) ∧
      decode (0b00101010#8 ++ 0b00000000000000#14 ++ 0b10#2 ++ 0b0000#4 ++ 0b1111#4) = .ok (.frd 2#2 15#4) ∧
      decode (0b00100111#8 ++ 0b0000000000000000000#19 ++ 0b11111#5) = .ok (.fencn 31#5) ∧
      decode (0b00110000#8 ++ 0b000#3 ++ 0b00100#5 ++ 0b1011000000000000#16) = .ok (.llds 4#5 0xB000#16) ∧
      decode (0b00110101#8 ++ 0b000#3 ++ 0b10000#5 ++ 0b0000000000000000#16) = .ok (.lgen 16#5) := by decide

/-- Words of the SPN rules R104 to R111, R123 to R128 and of NOP (R201). -/
theorem test_decode_spn :
    decode 0x00000000#32 = .ok .nop ∧ decode 0x1000006D#32 = .ok (.sldb 0x6D#8) ∧
      decode 0x110000AC#32 = .ok (.sldk 0xAC#8) ∧ decode 0x120000AA#32 = .ok (.sldrk 0xAA#8) ∧
      decode 0x13000001#32 = .ok (.skder 1#1) ∧ decode 0x14000000#32 = .ok .sxor ∧
      decode 0x15000000#32 = .ok .ssub ∧ decode 0x16000000#32 = .ok .sisub ∧
      decode 0x17000000#32 = .ok .sperm ∧ decode 0x18000000#32 = .ok .siperm ∧
      decode 0x19000000#32 = .ok .srenc ∧ decode 0x1A000000#32 = .ok .srdec ∧
      decode 0x1B000000#32 = .ok .senc ∧ decode 0x1C000000#32 = .ok .sdec ∧
      decode 0x1D000002#32 = .ok (.srd 2#2) := by decide

/-- Words of the Feistel rules R147 to R157 and of T16. -/
theorem test_decode_feistel :
    decode 0x20001234#32 = .ok (.fldb 0x1234#16) ∧ decode 0x21000000#32 = .ok .fkclr ∧
      decode 0x220000A7#32 = .ok (.fkpush 0xA7#8) ∧ decode 0x230040C0#32 = .ok (.ff 0x40#8 0xC0#8) ∧
      decode 0x2400000F#32 = .ok (.frnd 0x0F#8) ∧ decode 0x2500000F#32 = .ok (.firnd 0x0F#8) ∧
      decode 0x26000000#32 = .ok .fenc ∧ decode 0x2700001F#32 = .ok (.fencn 31#5) ∧
      decode 0x28000000#32 = .ok .fdec ∧ decode 0x29000002#32 = .ok (.fdecn 2#5) ∧
      decode 0x2A000100#32 = .ok (.frd 1#2 0#4) ∧ decode 0x2A00020F#32 = .ok (.frd 2#2 15#4) := by decide

/-- Words of the LFSR rules R171 to R181 and of T16. -/
theorem test_decode_lfsr :
    decode 0x3011FFFF#32 = .ok (.llds 17#5 0xFFFF#16) ∧ decode 0x31009000#32 = .ok (.lldt 0x9000#16) ∧
      decode 0x32000003#32 = .ok (.lsetd 3#2) ∧ decode 0x33000000#32 = .ok .lrst ∧
      decode 0x34000000#32 = .ok .lstep ∧ decode 0x35040000#32 = .ok (.lgen 4#5) ∧
      decode 0x3610FFFF#32 = .ok (.lenc 16#5 0xFFFF#16) ∧ decode 0x37000003#32 = .ok (.lrd 3#2) := by decide

/-- T16: reserved opcodes (R78). -/
theorem test_decode_reserved_opcodes :
    decode 0x01000000#32 = .error .reservedOpcode ∧ decode 0x0F123456#32 = .error .reservedOpcode ∧
      decode 0x1E000000#32 = .error .reservedOpcode ∧ decode 0x1F000000#32 = .error .reservedOpcode ∧
      decode 0x2B000000#32 = .error .reservedOpcode ∧ decode 0x2F000000#32 = .error .reservedOpcode ∧
      decode 0x38000000#32 = .error .reservedOpcode ∧ decode 0xFFFFFFFF#32 = .error .reservedOpcode := by decide

/-- T16: a 1 in a must-be-zero bit (R79). -/
theorem test_decode_must_be_zero :
    decode 0x00000001#32 = .error .mbzViolation ∧ decode 0x1000016D#32 = .error .mbzViolation ∧
      decode 0x13000002#32 = .error .mbzViolation ∧ decode 0x1B000001#32 = .error .mbzViolation ∧
      decode 0x2001FFFF#32 = .error .mbzViolation ∧ decode 0x27000020#32 = .error .mbzViolation ∧
      decode 0x2A000210#32 = .error .mbzViolation ∧ decode 0x2A000400#32 = .error .mbzViolation ∧
      decode 0x30200000#32 = .error .mbzViolation ∧ decode 0x32000004#32 = .error .mbzViolation ∧
      decode 0x35040001#32 = .error .mbzViolation := by decide

/-- T16: reserved field values (R80). -/
theorem test_decode_reserved_fields :
    decode 0x1D000003#32 = .error .reservedField ∧ decode 0x2A000101#32 = .error .reservedField ∧
      decode 0x2A000300#32 = .error .reservedField ∧ decode 0x35110000#32 = .error .reservedField ∧
      decode 0x36110000#32 = .error .reservedField := by decide

/-- The words of the examples of R105, R152, R154 and R179, from the encoder. -/
theorem test_encode :
    encode (.sldrk 0xAA#8) = 0x120000AA#32 ∧ encode (.firnd 0x0F#8) = 0x2500000F#32 ∧
      encode (.fencn 5#5) = 0x27000005#32 ∧ encode (.lenc 4#5 0x6000#16) = 0x36046000#32 ∧
      encode (.frd 2#2 4#4) = 0x2A000204#32 := by decide

/-- The table's numbering: one 32-bit word; a reserved opcode is refused. -/
theorem test_decodeTableWord :
    decodeTableWord 32 0x3004B000 = some (.llds 4#5 0xB000#16) ∧ decodeTableWord 32 0x01000000 = none := by decide

/-! ### One step of each command -/

/-- The reset state with the SPN registers given. -/
def spnState (sb sk srk : Byte) : State := { State.reset with spn := ⟨sb, sk, srk⟩ }

/-- The reset state with a Feistel block and a key sequence of at most 16 keys. -/
def feistelState (l r : Byte) (keys : List Byte) : State :=
  { State.reset with feistel := ⟨l, r, Vector.ofFn (fun i => keys.getD i.val 0x00#8), BitVec.ofNat 5 keys.length⟩ }

/-- The reset state with the LFSR registers given. -/
def lfsrState (lw : BitVec 5) (ldir : BitVec 2) (lt lseed ls : Wide) : State :=
  { State.reset with lfsr := ⟨lw, ldir, lt, lseed, ls⟩ }

/-- The state after a command. -/
def after (i : Instr) (s : State) : State :=
  match exec i s with
  | .next t => t
  | _ => s

/-- The response word a command returns. -/
def answer (i : Instr) (s : State) : Option Word := (after i s).responses.getLast?.map Rsp.toWord

/-- The keys of T2. -/
def keysT2 : List Byte := [0x0F#8, 0x36#8, 0xA7#8, 0x55#8]

/-- Sixteen keys 0x00 to 0x0F (P7). -/
def keysP7 : List Byte :=
  [0x00#8, 0x01#8, 0x02#8, 0x03#8, 0x04#8, 0x05#8, 0x06#8, 0x07#8, 0x08#8, 0x09#8, 0x0A#8, 0x0B#8, 0x0C#8, 0x0D#8,
    0x0E#8, 0x0F#8]

/-- The registers of T3, with the given direction and taps. -/
def lfsrT3 (ldir : BitVec 2) (lt : Wide) : State := lfsrState 4#5 ldir lt 0xB000#16 0xB000#16

/-- R201, its example. -/
theorem test_nop : answer .nop (spnState 0x6D#8 0xAC#8 0xAA#8) = some 0x00000000#32 ∧
    (after .nop (spnState 0x6D#8 0xAC#8 0xAA#8)).spn = ⟨0x6D#8, 0xAC#8, 0xAA#8⟩ := by decide

/-- R104, its example. -/
theorem test_sldb : answer (.sldb 0x6D#8) State.reset = some 0x0000006D#32 ∧
    (after (.sldb 0x6D#8) State.reset).spn = ⟨0x6D#8, 0x00#8, 0x00#8⟩ := by decide

/-- P1, second line. -/
theorem test_sldk : answer (.sldk 0xAC#8) (spnState 0x6D#8 0x00#8 0x00#8) = some 0x0000006D#32 ∧
    (after (.sldk 0xAC#8) (spnState 0x6D#8 0x00#8 0x00#8)).spn = ⟨0x6D#8, 0xAC#8, 0x00#8⟩ := by decide

/-- R105, its example. -/
theorem test_sldrk : (after (.sldrk 0xAA#8) State.reset).spn = ⟨0x00#8, 0x00#8, 0xAA#8⟩ := by decide

/-- R124, its example. -/
theorem test_skder : (after (.skder 0#1) (spnState 0x6D#8 0xAC#8 0x00#8)).spn.srk = 0xAA#8 ∧
    (after (.skder 1#1) (spnState 0x6D#8 0xAC#8 0x00#8)).spn.srk = 0xCC#8 := by decide

/-- R106, its example. -/
theorem test_sxor : answer .sxor (spnState 0x6D#8 0xAC#8 0xAA#8) = some 0x000000C7#32 := by decide

/-- T10, the row of 0x1B, and R107, its example. -/
theorem test_ssub : answer .ssub (spnState 0x1B#8 0x00#8 0x00#8) = some 0x0000008D#32 ∧
    answer .ssub (spnState 0xC7#8 0x00#8 0x00#8) = some 0x00000061#32 := by decide

/-- T10, the rows of 0x1B and 0x92. -/
theorem test_sisub : answer .sisub (spnState 0x1B#8 0x00#8 0x00#8) = some 0x00000072#32 ∧
    answer .sisub (spnState 0x92#8 0x00#8 0x00#8) = some 0x00000034#32 := by decide

/-- T10, the rows of 0x6D and of each single bit of the first half. -/
theorem test_sperm : answer .sperm (spnState 0x6D#8 0x00#8 0x00#8) = some 0x000000A7#32 ∧
    answer .sperm (spnState 0x80#8 0x00#8 0x00#8) = some 0x00000040#32 ∧
    answer .sperm (spnState 0x20#8 0x00#8 0x00#8) = some 0x00000080#32 := by decide

/-- T10, the rows of 0xB4, 0x80 and 0x04. -/
theorem test_siperm : answer .siperm (spnState 0xB4#8 0x00#8 0x00#8) = some 0x00000078#32 ∧
    answer .siperm (spnState 0x80#8 0x00#8 0x00#8) = some 0x00000020#32 ∧
    answer .siperm (spnState 0x04#8 0x00#8 0x00#8) = some 0x00000008#32 := by decide

/-- T11, the rows of (0x6D, 0xAA) and (0x0F, 0xF0). -/
theorem test_srenc : answer .srenc (spnState 0x6D#8 0x00#8 0xAA#8) = some 0x000000A1#32 ∧
    answer .srenc (spnState 0x0F#8 0x00#8 0xF0#8) = some 0x00000033#32 := by decide

/-- T11, the rows of (0x6D, 0xAA) and (0x5A, 0x3C). -/
theorem test_srdec : answer .srdec (spnState 0x6D#8 0x00#8 0xAA#8) = some 0x00000038#32 ∧
    answer .srdec (spnState 0x5A#8 0x00#8 0x3C#8) = some 0x00000000#32 := by decide

/-- T1, and T11, the row of (0x01, 0x23); SRK stays as it was (R127). -/
theorem test_senc : answer .senc (spnState 0x6D#8 0xAC#8 0x11#8) = some 0x00000092#32 ∧
    answer .senc (spnState 0x01#8 0x23#8 0x00#8) = some 0x000000B9#32 ∧
    (after .senc (spnState 0x6D#8 0xAC#8 0x11#8)).spn = ⟨0x92#8, 0xAC#8, 0x11#8⟩ := by decide

/-- T1, and T11, the row of (0x01, 0x23). -/
theorem test_sdec : answer .sdec (spnState 0x92#8 0xAC#8 0x00#8) = some 0x0000006D#32 ∧
    answer .sdec (spnState 0x01#8 0x23#8 0x00#8) = some 0x000000B3#32 := by decide

/-- R52, R111: the three selectors. -/
theorem test_srd : answer (.srd 0#2) (spnState 0x92#8 0xAC#8 0xCC#8) = some 0x00000092#32 ∧
    answer (.srd 1#2) (spnState 0x92#8 0xAC#8 0xCC#8) = some 0x000000AC#32 ∧
    answer (.srd 2#2) (spnState 0x92#8 0xAC#8 0xCC#8) = some 0x000000CC#32 := by decide

/-- R147, its example. -/
theorem test_fldb : answer (.fldb 0x1234#16) State.reset = some 0x00001234#32 ∧
    (after (.fldb 0x1234#16) State.reset).feistel.fl = 0x12#8 ∧
    (after (.fldb 0x1234#16) State.reset).feistel.fr = 0x34#8 := by decide

/-- R148, its example. -/
theorem test_fkclr : answer .fkclr (feistelState 0x12#8 0x34#8 keysT2) = some 0x00001234#32 ∧
    answer (.frd 2#2 0#4) (after .fkclr (feistelState 0x12#8 0x34#8 keysT2)) = some 0x03000000#32 := by decide

/-- R149: the sixteenth key goes into entry 15. -/
theorem test_fkpush : (after (.fkpush 0xA5#8) (feistelState 0x12#8 0x34#8 (keysP7.take 15))).feistel.fkn = 16#5 ∧
    answer (.frd 2#2 15#4) (after (.fkpush 0xA5#8) (feistelState 0x12#8 0x34#8 (keysP7.take 15)))
      = some 0x000000A5#32 := by decide

/-- T17, its last row: the seventeenth key. -/
theorem test_fkpush_full : answer (.fkpush 0xFF#8) (feistelState 0x12#8 0x34#8 keysP7) = some 0x05000000#32 ∧
    (after (.fkpush 0xFF#8) (feistelState 0x12#8 0x34#8 keysP7)).feistel
      = (feistelState 0x12#8 0x34#8 keysP7).feistel := by decide

/-- T12: the top bit wraps; and a row with both operands. -/
theorem test_ff : answer (.ff 0x80#8 0x00#8) State.reset = some 0x00000001#32 ∧
    answer (.ff 0x12#8 0x36#8) State.reset = some 0x00000048#32 := by decide

/-- T12, the rows of (0x12, 0x34) and (0x00, 0x80). -/
theorem test_frnd : answer (.frnd 0x0F#8) (feistelState 0x12#8 0x34#8 []) = some 0x00003464#32 ∧
    answer (.frnd 0x00#8) (feistelState 0x00#8 0x80#8 []) = some 0x00008001#32 := by decide

/-- T12, the rows of (0x12, 0x34) and (0x80, 0x00). -/
theorem test_firnd : answer (.firnd 0x0F#8) (feistelState 0x12#8 0x34#8 []) = some 0x00000E12#32 ∧
    answer (.firnd 0x01#8) (feistelState 0x80#8 0x00#8 []) = some 0x00000380#32 := by decide

/-- T13, its first row and the row of sixteen keys. -/
theorem test_fenc : answer .fenc (feistelState 0x12#8 0x34#8 keysT2) = some 0x00000A2E#32 ∧
    answer .fenc (feistelState 0xBE#8 0xEF#8 keysP7) = some 0x00002019#32 := by decide

/-- T13, the paragraph on the round-count override. -/
theorem test_fencn : answer (.fencn 3#5) (feistelState 0x12#8 0x34#8 keysT2) = some 0x0000900A#32 ∧
    answer (.fencn 0#5) (feistelState 0x12#8 0x34#8 keysT2) = some 0x00001234#32 ∧
    answer (.fencn 5#5) (feistelState 0x12#8 0x34#8 keysT2) = some 0x02000000#32 := by decide

/-- T13, its first row; and not the rejected reading's 0xA1C5 (T2). -/
theorem test_fdec : answer .fdec (feistelState 0x0A#8 0x2E#8 keysT2) = some 0x00001234#32 ∧
    answer .fdec (feistelState 0x12#8 0x34#8 keysT2) = some 0x00003B86#32 := by decide

/-- T13: FDECN 2 uses keys 0x36 then 0x0F; and T17. -/
theorem test_fdecn : answer (.fdecn 2#5) (feistelState 0x64#8 0x90#8 keysT2) = some 0x00001234#32 ∧
    answer (.fdecn 5#5) (feistelState 0x64#8 0x90#8 keysT2) = some 0x02000000#32 := by decide

/-- R157, its example, and the block. -/
theorem test_frd : answer (.frd 0#2 0#4) (feistelState 0x12#8 0x34#8 keysT2) = some 0x00001234#32 ∧
    answer (.frd 1#2 0#4) (feistelState 0x12#8 0x34#8 keysT2) = some 0x00000004#32 ∧
    answer (.frd 2#2 2#4) (feistelState 0x12#8 0x34#8 keysT2) = some 0x000000A7#32 ∧
    answer (.frd 2#2 4#4) (feistelState 0x12#8 0x34#8 keysT2) = some 0x03000000#32 := by decide

/-- R171, its example. -/
theorem test_llds : answer (.llds 4#5 0xB000#16) State.reset = some 0x0000B000#32 ∧
    (after (.llds 4#5 0xB000#16) State.reset).lfsr = ⟨4#5, 0#2, 0x0000#16, 0xB000#16, 0xB000#16⟩ ∧
    answer (.llds 4#5 0xB800#16) State.reset = some 0x01000000#32 := by decide

/-- T17: an empty state, a state too long, and the capacity checked before the stray bits. -/
theorem test_llds_errors : answer (.llds 0#5 0x0000#16) State.reset = some 0x01000000#32 ∧
    answer (.llds 17#5 0x0000#16) State.reset = some 0x05000000#32 ∧
    answer (.llds 17#5 0xFFFF#16) State.reset = some 0x05000000#32 := by decide

/-- R172, its example: taps 0 and 3; an out-of-range tap is stored (P5). -/
theorem test_lldt : (after (.lldt 0x9000#16) (lfsrT3 0#2 0x0000#16)).lfsr
      = ⟨4#5, 0#2, 0x9000#16, 0xB000#16, 0xB000#16⟩ ∧
    answer (.lldt 0x0800#16) (lfsrT3 0#2 0x0000#16) = some 0x0000B000#32 := by decide

/-- R173, its example; 2 is stored too (P5). -/
theorem test_lsetd : (after (.lsetd 1#2) (lfsrT3 0#2 0x9000#16)).lfsr.ldir = 1#2 ∧
    (after (.lsetd 2#2) (lfsrT3 0#2 0x9000#16)).lfsr.ldir = 2#2 ∧
    answer (.lsetd 2#2) (lfsrT3 0#2 0x9000#16) = some 0x0000B000#32 := by decide

/-- R174, its example. -/
theorem test_lrst : answer .lrst (lfsrState 4#5 0#2 0x9000#16 0xB000#16 0x6000#16) = some 0x0000B000#32 ∧
    (after .lrst (lfsrState 4#5 0#2 0x9000#16 0xB000#16 0x6000#16)).lfsr.ls = 0xB000#16 := by decide

/-- R177, its example; T14, the 16-bit rows in both directions. -/
theorem test_lstep : answer .lstep (lfsrT3 0#2 0x9000#16) = some 0x00008000#32 ∧
    (after .lstep (lfsrT3 0#2 0x9000#16)).lfsr.ls = 0x5000#16 ∧
    (after .lstep (lfsrState 16#5 0#2 0x0001#16 0x0000#16 0xACE1#16)).lfsr.ls = 0xD670#16 ∧
    (after .lstep (lfsrState 16#5 1#2 0x0001#16 0x0000#16 0xACE1#16)).lfsr.ls = 0x59C3#16 := by decide

/-- T17: no state, a tap out of range, no direction, and the tap before the direction. -/
theorem test_lstep_errors : answer .lstep State.reset = some 0x01000000#32 ∧
    answer .lstep (lfsrT3 0#2 0x0800#16) = some 0x03000000#32 ∧
    answer .lstep (lfsrT3 2#2 0x9000#16) = some 0x02000000#32 ∧
    answer .lstep (lfsrT3 2#2 0x0800#16) = some 0x03000000#32 := by decide

/-- T15, the rows of 16 bits and of the eight-place register. -/
theorem test_lgen : answer (.lgen 16#5) (lfsrT3 0#2 0x9000#16) = some 0x0000D647#32 ∧
    (after (.lgen 16#5) (lfsrT3 0#2 0x9000#16)).lfsr.ls = 0x5000#16 ∧
    answer (.lgen 16#5) (lfsrState 8#5 1#2 0x4100#16 0x0000#16 0x9600#16) = some 0x00009637#32 := by decide

/-- T17: LGEN 0 makes the first two checks and not the third. -/
theorem test_lgen_zero : answer (.lgen 0#5) State.reset = some 0x01000000#32 ∧
    answer (.lgen 0#5) (lfsrT3 0#2 0x0800#16) = some 0x03000000#32 ∧
    answer (.lgen 0#5) (lfsrT3 2#2 0x9000#16) = some 0x00000000#32 := by decide

/-- T3, and T15, the left row. -/
theorem test_lenc : answer (.lenc 4#5 0x6000#16) (lfsrT3 0#2 0x9000#16) = some 0x0000B000#32 ∧
    (after (.lenc 4#5 0x6000#16) (lfsrT3 0#2 0x9000#16)).lfsr.ls = 0x6000#16 ∧
    answer (.lenc 4#5 0x6000#16) (lfsrT3 1#2 0x9000#16) = some 0x0000D000#32 := by decide

/-- T17: the check of the data comes before the check of the direction. -/
theorem test_lenc_errors : answer (.lenc 4#5 0x0800#16) (lfsrT3 2#2 0x9000#16) = some 0x01000000#32 ∧
    answer (.lenc 0#5 0x0000#16) State.reset = some 0x01000000#32 := by decide

/-- R181, its example, and R52's other selectors. -/
theorem test_lrd : answer (.lrd 3#2) (lfsrT3 1#2 0x9000#16) = some 0x00000104#32 ∧
    answer (.lrd 2#2) (lfsrT3 1#2 0x9000#16) = some 0x00009000#32 ∧
    answer (.lrd 1#2) (lfsrState 4#5 1#2 0x9000#16 0xB000#16 0x6000#16) = some 0x0000B000#32 ∧
    answer (.lrd 0#2) (lfsrState 4#5 1#2 0x9000#16 0xB000#16 0x6000#16) = some 0x00006000#32 := by decide

/-- An illegal word placed as the next command: R203, its example, and its response word. -/
theorem test_step_illegal :
    step (State.reset.withFetchWord 32 0x1D000003) = .next (State.reset.respond ⟨.illegalCommand, 0#24⟩) ∧
      Rsp.toWord ⟨.illegalCommand, 0#24⟩ = 0x04000000#32 := ⟨rfl, by decide⟩

/-- A command word placed as the next command runs as the first command after reset (T18: SENC gives 0xAA). -/
theorem test_step_first_command :
    step (State.reset.withFetchWord 32 0x1B000000)
      = .next ((State.reset.setSb 0xAA#8).respond ⟨.ok, 0x0000AA#24⟩) := rfl

/-- The reset event (R39, R230). -/
theorem test_step_reset :
    step { lfsrT3 1#2 0x9000#16 with pending := [.reset] } = .next State.reset := rfl

/-- The pseudo-instructions of R84: FEI.ENC, and LFSR.KS of 20 and of 16 bits. -/
theorem test_expand :
    expand (.feiEnc 0x1234#16 [0x0F#8, 0x36#8])
        = some [.fkclr, .fkpush 0x0F#8, .fkpush 0x36#8, .fldb 0x1234#16, .fenc] ∧
      expand (.lfsrKs 20) = some [.lrst, .lgen 16#5, .lgen 4#5] ∧ expand (.lfsrKs 16) = some [.lrst, .lgen 16#5] ∧
      expand (.lfsrKs 0) = some [.lrst, .lgen 0#5] ∧ expand (.lfsrEnc []) = some [.lrst, .lenc 0#5 0x0000#16] ∧
      expand (.lfsrInit [true, false, true, true] [0, 3] 0#2)
        = some [.llds 4#5 0xB000#16, .lldt 0x9000#16, .lsetd 0#2] := by decide

/-! ### Witnesses: for every statement with hypotheses, states and operands that meet all of them -/

/-- A state with every engine's registers in use: four keys, and the LFSR of T3. -/
def busy : State :=
  { lfsrT3 0#2 0x9000#16 with spn := ⟨0x6D#8, 0xAC#8, 0xAA#8⟩, feistel := (feistelState 0x12#8 0x34#8 keysT2).feistel }

/-- A full key table, and an LFSR of 16 places. -/
def full : State :=
  { lfsrState 16#5 1#2 0xB400#16 0xACE1#16 0xACE1#16 with feistel := (feistelState 0xBE#8 0xEF#8 keysP7).feistel }

/-- The LFSR of one place, with its tap. -/
def onePlace (ldir : BitVec 2) : State := lfsrState 1#5 ldir 0x8000#16 0x8000#16 0x8000#16

theorem busy_legal : busy.Legal := legal_of_checks (by decide) (by decide) (by decide) (by decide)

theorem full_legal : full.Legal := legal_of_checks (by decide) (by decide) (by decide) (by decide)

theorem onePlace_legal (d : BitVec 2) : (onePlace d).Legal :=
  legal_of_checks (by decide : 0 ≤ 16) (by decide : 1 ≤ 16) (by decide : strayBits 1 0x8000#16 = false)
    (by decide : strayBits 1 0x8000#16 = false)

/-- No stray bit, by evaluation of the check. -/
theorem no_stray {n : Nat} {v : Wide} (h : strayBits n v = false) : ¬ HasStray n v := (strayBits_false_iff n v).mp h

theorem busy_ready : ReadyToStep busy.lfsr .right := ⟨by decide, no_stray (by decide), .inl ⟨rfl, rfl⟩⟩

theorem full_ready : ReadyToStep full.lfsr .left := ⟨by decide, no_stray (by decide), .inr ⟨rfl, rfl⟩⟩

theorem onePlace_ready : ReadyToStep (onePlace 0#2).lfsr .right ∧ ReadyToStep (onePlace 1#2).lfsr .left :=
  ⟨⟨by decide, no_stray (by decide), .inl ⟨rfl, rfl⟩⟩, ⟨by decide, no_stray (by decide), .inr ⟨rfl, rfl⟩⟩⟩

theorem test_witness_StepRunsTheDecodedCommand :
    (busy.present 0x14000000#32).pending = .command 0x14000000#32 :: [] ∧ decode 0x14000000#32 = .ok .sxor := by decide

/-- A reserved opcode, a must-be-zero bit and a reserved field value: no line accepts any of them. -/
theorem test_witness_IllegalWordRaisesIllegalCommand :
    (busy.present 0x01000000#32).pending = .command 0x01000000#32 :: [] ∧
      (∀ l ∈ opcodeMap, ¬ l.Accepts 0x01000000#32) ∧ (∀ l ∈ opcodeMap, ¬ l.Accepts 0x00000001#32) ∧
      (∀ l ∈ opcodeMap, ¬ l.Accepts 0x1D000003#32) := by
  simp only [MapLine.Accepts]
  decide

theorem test_witness_DecodeOfEncodeIsTheCommand :
    (Instr.lenc 16#5 0xFFFF#16).wellFormed = true ∧ (Instr.frd 2#2 15#4).wellFormed = true := by decide

theorem test_witness_EncodeOfDecodeIsTheWord : decode 0x2A00020F#32 = .ok (.frd 2#2 15#4) := by decide

theorem test_witness_ResetGivesTheTablesValues :
    ({ full with pending := [.reset, .command 0#32] }).pending = .reset :: [.command 0#32] := by decide

theorem test_witness_PortOverResetAndWaiting :
    ({ full with pending := [.reset, .command 0#32] }).pending = .reset :: [.command 0#32] ∧ full.pending = [] := by decide

theorem test_witness_EveryWordGetsOneResponse :
    (full.present 0xFFFFFFFF#32).pending = .command 0xFFFFFFFF#32 :: [] := by decide

/-- LGEN 16 at 16 places, and FKPUSH into the last entry. -/
theorem test_witness_StepKeepsRegistersLegal :
    ((full.present 0x35100000#32).Legal ∧ ∃ t, step (full.present 0x35100000#32) = .next t) ∧
      (feistelState 0x12#8 0x34#8 (keysP7.take 15)).Legal ∧
        ∃ t, step ((feistelState 0x12#8 0x34#8 (keysP7.take 15)).present 0x220000FF#32) = .next t :=
  ⟨⟨full_legal, _, rfl⟩, legal_of_checks (by decide) (by decide) (by decide) (by decide), _, rfl⟩

/-- After one response of each kind. -/
theorem test_witness_StepKeepsResponsesFormed :
    (∀ r ∈ ((busy.respond ⟨.ok, 0x00FFFF#24⟩).respond ⟨.illegalCommand, 0#24⟩).responses, r.Formed) ∧
      ∃ t, step (((busy.respond ⟨.ok, 0x00FFFF#24⟩).respond ⟨.illegalCommand, 0#24⟩).present 0x35040000#32)
        = .next t := by
  refine ⟨?_, _, rfl⟩
  simp only [Rsp.Formed]
  decide

/-- FENCN 5 with four keys, and an illegal word. -/
theorem test_witness_FailureIsAtomic :
    (step (busy.present 0x27000005#32) = .next (busy.respond ⟨.invalidArgument, 0#24⟩) ∧
      (busy.respond ⟨.invalidArgument, 0#24⟩).responses = busy.responses ++ [⟨.invalidArgument, 0#24⟩]) ∧
    step (busy.present 0x01000000#32) = .next (busy.respond ⟨.illegalCommand, 0#24⟩) := ⟨⟨rfl, rfl⟩, rfl⟩

/-- A command that fails with a status of its row, and one that completes. -/
theorem test_witness_CommandsReturnOnlyTheirStatuses :
    ((Instr.fencn 31#5).wellFormed = true ∧
      exec (.fencn 31#5) full = .next (full.respond ⟨.invalidArgument, 0#24⟩)) ∧
    (Instr.srd 1#2).wellFormed = true ∧ exec (.srd 1#2) busy = .next (busy.respond ⟨.ok, 0x0000AC#24⟩) :=
  ⟨⟨by decide, rfl⟩, by decide, rfl⟩

/-- For each register a command that changes it. -/
theorem test_witness_RegistersChangeOnlyByTheirCommands :
    (exec .sxor busy = .next (after .sxor busy) ∧ (after .sxor busy).spn.sb ≠ busy.spn.sb) ∧
      (after (.sldk 0x01#8) busy).spn.sk ≠ busy.spn.sk ∧ (after (.skder 1#1) busy).spn.srk ≠ busy.spn.srk ∧
      (after (.frnd 0x0F#8) busy).feistel.fl ≠ busy.feistel.fl ∧
      (after (.frnd 0x0F#8) busy).feistel.fr ≠ busy.feistel.fr ∧
      (after (.fkpush 0xFF#8) busy).feistel.fk ≠ busy.feistel.fk ∧
      (after .fkclr busy).feistel.fkn ≠ busy.feistel.fkn ∧
      (after (.llds 16#5 0xACE1#16) busy).lfsr.lw ≠ busy.lfsr.lw ∧
      (after (.llds 16#5 0xACE1#16) busy).lfsr.lseed ≠ busy.lfsr.lseed ∧
      (after (.lsetd 3#2) busy).lfsr.ldir ≠ busy.lfsr.ldir ∧ (after (.lldt 0#16) busy).lfsr.lt ≠ busy.lfsr.lt ∧
      (after .lstep busy).lfsr.ls ≠ busy.lfsr.ls := by
  refine ⟨⟨rfl, ?_⟩, ?_⟩ <;> decide

theorem test_witness_DifferentEnginesCommute :
    Instr.nop.engine = none ∧ Instr.senc.engine ≠ Instr.fenc.engine ∧ Instr.fenc.engine ≠ Instr.lstep.engine := by decide

/-- Four keys, and two states that differ in entry 4. -/
theorem test_witness_DeadKeysAreUnobservable :
    SameButDeadKeys (busy.present 0x26000000#32)
        { busy.present 0x26000000#32 with
          feistel := { busy.feistel with fk := busy.feistel.fk.setIfInBounds 4 0xEE#8 } } ∧
      busy.feistel.fk ≠ busy.feistel.fk.setIfInBounds 4 0xEE#8 ∧
      ∃ t, step (busy.present 0x26000000#32) = .next t := by
  refine ⟨⟨rfl, rfl, rfl, rfl, rfl, rfl, rfl, ?_⟩, by decide, _, rfl⟩
  show ∀ i, i < 4 → _
  decide

/-- The sequence kept, emptied, and grown into the last entry. -/
theorem test_witness_KeySequenceGrowsOnlyByPush :
    (busy.feistel.fkn.toNat ≤ 16 ∧ exec (.frnd 0x0F#8) busy = .next (after (.frnd 0x0F#8) busy)) ∧
      (full.feistel.fkn.toNat ≤ 16 ∧ exec .fkclr full = .next (after .fkclr full)) ∧
      exec (.fkpush 0xFF#8) (feistelState 0x12#8 0x34#8 (keysP7.take 15))
        = .next (after (.fkpush 0xFF#8) (feistelState 0x12#8 0x34#8 (keysP7.take 15))) :=
  ⟨⟨by decide, rfl⟩, ⟨by decide, rfl⟩, rfl⟩

theorem test_witness_RepeatingALoadOrReadChangesNothingMore :
    ∀ m ∈ [(Instr.srd 0#2).mnemonic, (Instr.llds 17#5 0#16).mnemonic, Instr.fkclr.mnemonic],
      m ∈ ["NOP", "SLDB", "SLDK", "SLDRK", "SKDER", "SRD", "FLDB", "FKCLR", "FF", "FRD", "LLDS", "LLDT", "LSETD", "LRST",
        "LRD"] := by decide

theorem test_witness_SrdAnswersTheSelectedRegister : (2#2 : BitVec 2) ≠ 3#2 := by decide

/-- The document's derivation (R122): key 0xAC gives 0xAA and 0xCC. -/
theorem test_witness_SpnCipherTakesKeyHalves :
    0xAA#8 = busy.spn.sk.extractLsb' 4 4 ++ busy.spn.sk.extractLsb' 4 4 ∧
      0xCC#8 = busy.spn.sk.extractLsb' 0 4 ++ busy.spn.sk.extractLsb' 0 4 := by decide

theorem test_witness_NopDoesNothing : (0x000001#24 : Area) ≠ 0#24 := by decide

theorem test_witness_FkclrEmptiesTheSequence : exec .fkclr full = .next (after .fkclr full) := rfl

/-- One entry free, and none. -/
theorem test_witness_FkpushAppendsOneKey :
    (feistelState 0x12#8 0x34#8 (keysP7.take 15)).feistel.fkn.toNat = 15 ∧ full.feistel.fkn.toNat = 16 := by decide

/-- A count above the keys, the count of all sixteen keys, and no round. -/
theorem test_witness_FencRunsTheRounds :
    full.feistel.fkn.toNat ≤ 16 ∧ full.feistel.fkn.toNat < (17#5).toNat ∧
      (16#5).toNat ≤ full.feistel.fkn.toNat ∧ (0#5).toNat ≤ State.reset.feistel.fkn.toNat := by decide

theorem test_witness_FdecRunsTheInverseRounds :
    full.feistel.fkn.toNat ≤ 16 ∧ full.feistel.fkn.toNat < (17#5).toNat ∧
      (16#5).toNat ≤ full.feistel.fkn.toNat ∧ (0#5).toNat ≤ State.reset.feistel.fkn.toNat := by decide

theorem test_witness_FeistelDecryptionUndoesEncryption :
    (16#5).toNat ≤ full.feistel.fkn.toNat ∧ 16 ≤ keysP7.length ∧ 0 ≤ ([] : List Byte).length := by decide

/-- T2 with the round count of R144 apart: four rounds, and none. -/
theorem test_feistel_round_counts :
    feistelEncryptN keysT2 4 (0x12#8, 0x34#8) = (0x0A#8, 0x2E#8) ∧
      feistelDecryptN keysT2 4 (0x0A#8, 0x2E#8) = (0x12#8, 0x34#8) ∧
      feistelEncryptN keysT2 0 (0x12#8, 0x34#8) = (0x12#8, 0x34#8) := by decide

/-- The last entry readable, and the first index that is not. -/
theorem test_witness_FrdAnswersTheSelectedValue :
    (15#4).toNat < full.feistel.fkn.toNat ∧ busy.feistel.fkn.toNat ≤ (4#4).toNat ∧
      State.reset.feistel.fkn.toNat ≤ (0#4).toNat := by decide

/-- A length above 16; a stray bit in the last place; the lengths 1 and 16 that load. -/
theorem test_witness_LldsChecksAndLoads :
    16 < (17#5).toNat ∧ (15#5 ≠ 0#5 ∧ (15#5).toNat ≤ 16 ∧ HasStray (15#5).toNat 0x0001#16) ∧
      (16#5 ≠ 0#5 ∧ (16#5).toNat ≤ 16 ∧ ¬ HasStray (16#5).toNat 0xFFFF#16) ∧
      (1#5 ≠ 0#5 ∧ (1#5).toNat ≤ 16 ∧ ¬ HasStray (1#5).toNat 0x8000#16) :=
  ⟨by decide, ⟨by decide, by decide, 15, by decide⟩, ⟨by decide, by decide, no_stray (by decide)⟩,
    by decide, by decide, no_stray (by decide)⟩

/-- The three commands that step, and a state for each check and for passing them all, LGEN 0 among them. -/
theorem test_witness_SteppingChecksInOrder :
    (AsksForSteps .lstep 1 0#16 ∧ AsksForSteps (.lgen 0#5) 0 0#16 ∧ AsksForSteps (.lenc 16#5 0xFFFF#16) 16 0xFFFF#16) ∧
      State.reset.lfsr.lw = 0#5 ∧
      ((lfsrT3 2#2 0x0800#16).lfsr.lw ≠ 0#5 ∧ HasStray (lfsrT3 2#2 0x0800#16).lfsr.lw.toNat 0x0800#16) ∧
      ((lfsrT3 2#2 0x9000#16).lfsr.lw ≠ 0#5 ∧ ¬ HasStray (lfsrT3 2#2 0x9000#16).lfsr.lw.toNat 0x9000#16 ∧
        (lfsrT3 2#2 0x9000#16).lfsr.ldir ≠ 0#2 ∧ (lfsrT3 2#2 0x9000#16).lfsr.ldir ≠ 1#2) ∧
      busy.lfsr.lw ≠ 0#5 ∧ ¬ HasStray busy.lfsr.lw.toNat busy.lfsr.lt ∧ busy.lfsr.ldir = 0#2 ∧ full.lfsr.ldir = 1#2 :=
  ⟨⟨.inl ⟨rfl, rfl, rfl⟩, .inr (.inl ⟨0#5, rfl, rfl, by decide, rfl⟩),
      .inr (.inr ⟨16#5, rfl, rfl, by decide, no_stray (by decide)⟩)⟩, rfl, ⟨by decide, 4, by decide⟩,
    ⟨by decide, no_stray (by decide), by decide, by decide⟩, by decide, no_stray (by decide), rfl, rfl⟩

theorem test_witness_LencRefusesStrayData :
    ((15#5).toNat ≤ 16 ∧ HasStray (15#5).toNat 0x0001#16) ∧ (0#5).toNat ≤ 16 ∧ HasStray (0#5).toNat 0x8000#16 :=
  ⟨⟨by decide, 15, by decide⟩, by decide, 0, by decide⟩

/-- Registers of 1, 4 and 16 places, both directions, each command. -/
theorem test_witness_SteppingFollowsTheSequenceStep :
    (busy.Legal ∧ AsksForSteps (.lenc 4#5 0x6000#16) 4 0x6000#16 ∧ ReadyToStep busy.lfsr .right) ∧
      (full.Legal ∧ AsksForSteps (.lgen 16#5) 16 0#16 ∧ ReadyToStep full.lfsr .left) ∧
      ((onePlace 0#2).Legal ∧ AsksForSteps .lstep 1 0#16 ∧ ReadyToStep (onePlace 0#2).lfsr .right) ∧
      (onePlace 1#2).Legal ∧ ReadyToStep (onePlace 1#2).lfsr .left :=
  ⟨⟨busy_legal, .inr (.inr ⟨4#5, rfl, rfl, by decide, no_stray (by decide)⟩), busy_ready⟩,
    ⟨full_legal, .inr (.inl ⟨16#5, rfl, rfl, by decide, rfl⟩), full_ready⟩,
    ⟨onePlace_legal _, .inl ⟨rfl, rfl, rfl⟩, onePlace_ready.1⟩, onePlace_legal _, onePlace_ready.2⟩

/-- LDIR names no direction here. -/
theorem test_witness_ZeroStepsIgnoreTheDirection :
    (lfsrT3 3#2 0x9000#16).lfsr.lw ≠ 0#5 ∧ ¬ HasStray (lfsrT3 3#2 0x9000#16).lfsr.lw.toNat 0x9000#16 :=
  ⟨by decide, no_stray (by decide)⟩

/-- Sixteen steps as 7 and 9 (T15: LGEN 16 answers 0xD647). -/
theorem test_witness_KeystreamSplitsIntoChunks :
    (16#5).toNat = (7#5).toNat + (9#5).toNat ∧
      exec (.lgen 16#5) busy
        = .next ({ busy with lfsr := { busy.lfsr with ls := 0x5000#16 } }.respond ⟨.ok, 0x00D647#24⟩) := by
  refine ⟨by decide, ?_⟩
  simp only [exec, execLgen, execLgenIn, advance, Config.organisation, show (16#5).toNat = 16 by decide,
    show lfsrAdvanceBy .serial busy.lfsr 16 = (0xD647#16, 0x5000#16) by decide]
  rfl

/-- T3. -/
theorem test_witness_LencUndoesItself :
    exec (.lenc 4#5 0x6000#16) busy
      = .next ({ busy with lfsr := { busy.lfsr with ls := 0x6000#16 } }.respond ⟨.ok, 0x00B000#24⟩) := by
  simp only [exec, execLenc, execLencIn, advance, Config.organisation,
    show lfsrAdvanceBy .serial busy.lfsr (4#5).toNat = (0xD000#16, 0x6000#16) by decide]
  rfl

/-- T14: no taps, from 1011 and from 0000. -/
theorem test_witness_EmptyTapsEmptyTheRegister :
    ((lfsrT3 0#2 0#16).Legal ∧ ReadyToStep (lfsrT3 0#2 0#16).lfsr .right ∧ (lfsrT3 0#2 0#16).lfsr.lt = 0#16) ∧
      (lfsrState 4#5 1#2 0#16 0xB000#16 0#16).Legal ∧
        ReadyToStep (lfsrState 4#5 1#2 0#16 0xB000#16 0#16).lfsr .left ∧
        (lfsrState 4#5 1#2 0#16 0xB000#16 0#16).lfsr.ls = 0#16 ∧ (16#5).toNat ≤ 16 :=
  ⟨⟨legal_of_checks (by decide) (by decide) (by decide) (by decide),
      ⟨by decide, no_stray (by decide), .inl ⟨rfl, rfl⟩⟩, rfl⟩,
    legal_of_checks (by decide) (by decide) (by decide) (by decide),
    ⟨by decide, no_stray (by decide), .inr ⟨rfl, rfl⟩⟩, rfl, by decide⟩

theorem test_witness_SubstitutionsLookUpEachGroup : (0 < 4 ∧ 3 < 4 : Prop) := by decide

theorem test_witness_PermutationsMoveEachBit : (1 < 2 ∧ 3 < 4 : Prop) := by decide

theorem test_witness_OrganisationsAgree :
    (0 ≤ 16 ∧ 16 ≤ 16 : Prop) ∧ ([] : List Byte).length ≤ 16 ∧ keysP7.length ≤ 16 := by decide

theorem test_witness_EveryOrganisationRunsTheSameMachine :
    State.reset.feistel.fkn.toNat ≤ 16 ∧ full.feistel.fkn.toNat = 16 := by decide

/-- T2 with the rounds unrolled. -/
theorem test_unrolled_rounds_encrypt :
    feistelEncryptIn ⟨.serial, .parallel, .parallel, .unrolled⟩ (0x12#8, 0x34#8) keysT2 = (0x0A#8, 0x2E#8) ∧
      feistelDecryptIn ⟨.serial, .parallel, .parallel, .unrolled⟩ (0x0A#8, 0x2E#8) keysT2 = (0x12#8, 0x34#8) := by decide

/-- R125, its example, looked up group by group; T3, its four output bits and last state, with the steps unrolled. -/
theorem test_serial_lookup_and_unrolled_steps :
    roundEncryptIn ⟨.serial, .parallel, .parallel, .unrolled⟩ 0x6D#8 0xAA#8 = 0xA1#8 ∧
      lfsrAdvanceBy .parallel busy.lfsr 4 = (0xD000#16, 0x6000#16) := by decide

theorem test_witness_FeistelCallsRoundTrip : keysP7.length = 16 ∧ ([] : List Byte).length ≤ 16 := by decide

theorem test_witness_LfsrCallsRoundTrip :
    (busy.Legal ∧ ReadyToStep busy.lfsr .right) ∧ full.Legal ∧ ReadyToStep full.lfsr .left :=
  ⟨⟨busy_legal, busy_ready⟩, full_legal, full_ready⟩

/-- R176: after reset no state is loaded, so LGEN answers InvalidInput, and LFSR.KS reports it (R84). -/
theorem test_witness_StreamCallReportsItsError :
    (hostRun [.lgen 16#5] State.reset).2.getLast? = some ⟨.invalidInput, 0#24⟩ ∧
      streamResult [.lgen 16#5] [⟨.invalidInput, 0#24⟩] = .error .invalidInput := ⟨rfl, rfl⟩

end Sys2Proof.Tests
end

section
/-! The reset event as one step (R240, R241), and the registers it leaves (R39). -/

namespace Sys2Proof.Machine

/-- The reset event puts every engine in its reset state, takes itself off the port, and answers nothing (R230, R240). -/
theorem step_of_reset {s : State} {rest : List HostInput} (h : s.pending = .reset :: rest) :
    step s = .next { State.reset with pending := rest, responses := s.responses } :=
  runNext_of_reset exec h

/-- Engines in their reset states hold the values of R39's table; FK is free there. -/
theorem registers_eq_table_of_engines_reset {t : State} (hspn : t.spn = Spn.reset)
    (hfeistel : t.feistel = Feistel.reset) (hlfsr : t.lfsr = Lfsr.reset) :
    t.spn = ⟨0x00#8, 0x00#8, 0x00#8⟩ ∧ t.feistel.fl = 0x00#8 ∧ t.feistel.fr = 0x00#8 ∧ t.feistel.fkn = 0#5 ∧
      t.lfsr = ⟨0#5, 0#2, 0x0000#16, 0x0000#16, 0x0000#16⟩ := by
  rw [hspn, hfeistel, hlfsr]
  exact ⟨rfl, rfl, rfl, rfl, rfl⟩

/-- Settles O7: both states have every engine in its reset state. -/
theorem resetGivesTheTablesValues : Obligations.ResetGivesTheTablesValues :=
  ⟨registers_eq_table_of_engines_reset rfl rfl rfl,
    fun _ _ h => ⟨_, step_of_reset h, registers_eq_table_of_engines_reset rfl rfl rfl⟩⟩

end Sys2Proof.Machine
end

section
/-! The opcode map by rows (R71, R74) and by match and mask (R75, R76) is the same map: each row writes out one line,
and the words of a line are decoded by the row that wrote it. -/

open Sys2Proof.Machine

namespace Sys2Proof

/-! ### A word as opcode and operand area (R70) -/

@[simp] theorem opcodeOf_append (b : Byte) (a : Area) : opcodeOf (b ++ a) = b := extractLsb'_append_high b a

@[simp] theorem areaOf_append (b : Byte) (a : Area) : areaOf (b ++ a) = a := extractLsb'_append_low b a

/-- A field of the operand area lies at the same bits of the word. -/
theorem extractLsb'_areaOf {start len : Nat} (h : start + len ≤ 24) (w : Word) :
    (areaOf w).extractLsb' start len = w.extractLsb' start len := BitVec.extractLsb'_extractLsb'_of_le h

theorem word_eq_iff (v w : Word) : v = w ↔ opcodeOf v = opcodeOf w ∧ areaOf v = areaOf w := by
  constructor
  · rintro rfl
    exact ⟨rfl, rfl⟩
  · rintro ⟨ho, ha⟩
    rw [← opcodeOf_append_areaOf v, ho, ha, opcodeOf_append_areaOf]

theorem and_eq_iff (w m p : Word) :
    w &&& m = p ↔ opcodeOf w &&& opcodeOf m = opcodeOf p ∧ areaOf w &&& areaOf m = areaOf p := by
  rw [word_eq_iff, opcodeOf, areaOf, BitVec.extractLsb'_and, BitVec.extractLsb'_and]
  rfl

/-- The match and mask test of a line asks for the opcode and for zeros in the must-be-zero bits (R74, R76). -/
theorem and_mask_eq_pattern_iff (op : Byte) (mbz : Area) (w : Word) :
    w &&& (0xFF#8 ++ mbz) = op ++ 0#24 ↔ op = opcodeOf w ∧ mbz &&& areaOf w = 0#24 := by
  have hones : opcodeOf w &&& 0xFF#8 = opcodeOf w := BitVec.and_allOnes
  rw [and_eq_iff, opcodeOf_append, opcodeOf_append, areaOf_append, areaOf_append, hones, BitVec.and_comm mbz,
    eq_comm (a := op)]

/-! ### What a row decodes (R74) -/

theorem nodup_opcodes : (opcodeRows.map OpcodeRow.op).Nodup := by decide

theorem mem_and_op_of_rowOf {op : Byte} {r : OpcodeRow} (h : rowOf op = some r) : r ∈ opcodeRows ∧ r.op = op :=
  ⟨List.mem_of_find?_eq_some h, by simpa using List.find?_some h⟩

/-- The lookup finds a row of the map exactly under the row's own opcode. -/
theorem rowOf_eq_some_iff (op : Byte) (r : OpcodeRow) : rowOf op = some r ↔ r ∈ opcodeRows ∧ r.op = op := by
  constructor
  · exact mem_and_op_of_rowOf
  · rintro ⟨hr, hop⟩
    have hfound : (rowOf op).isSome = true := List.find?_isSome.mpr ⟨r, hr, beq_iff_eq.mpr hop⟩
    obtain ⟨q, hq⟩ := Option.isSome_iff_exists.mp hfound
    obtain ⟨hqmem, hqop⟩ := mem_and_op_of_rowOf hq
    obtain rfl : q = r := List.inj_on_of_nodup_map nodup_opcodes hqmem hr (hqop.trans hop.symm)
    exact hq

theorem readRow_eq_ok_iff (r : OpcodeRow) (a : Area) (i : Instr) :
    readRow r a = .ok i ↔ r.format.mbz &&& a = 0#24 ∧ (r.read a).wellFormed = true ∧ r.read a = i := by
  unfold readRow
  split
  case isTrue hmbz =>
    split
    case isTrue hwf => simp [hmbz, hwf]
    case isFalse hwf => simp [hwf]
  case isFalse hmbz => simp [hmbz]

/-- A word decodes to what a row of the map with its opcode reads from its operand area. -/
theorem decode_eq_ok_iff (w : Word) (i : Instr) :
    decode w = .ok i ↔ ∃ r ∈ opcodeRows, r.op = opcodeOf w ∧ readRow r (areaOf w) = .ok i := by
  have hrow : decode w = .ok i ↔ ∃ r, rowOf (opcodeOf w) = some r ∧ readRow r (areaOf w) = .ok i := by
    unfold decode
    cases rowOf (opcodeOf w) <;> simp
  simp only [hrow, rowOf_eq_some_iff, and_assoc]

/-! ### The line a row writes out (R75, R76) -/

/-- The line of the map by match and mask that a row stands for: the mask covers the opcode and the must-be-zero bits,
and the extra constraint is that the command read is well-formed. -/
def OpcodeRow.line (r : OpcodeRow) : MapLine where
  mnemonic := (r.read 0#24).mnemonic
  pattern := r.op ++ 0#24
  mask := 0xFF#8 ++ r.format.mbz
  constraint w := (r.read (areaOf w)).wellFormed

/-- Line by line and in the same order: the constraints agree because a field is read at the same bits either way. -/
theorem opcodeMap_eq_map_line : opcodeMap = opcodeRows.map OpcodeRow.line := by
  simp [opcodeMap, spnMap, feistelMap, lfsrMap, opcodeRows, systemRows, spnRows, feistelRows, lfsrRows,
    OpcodeRow.line, Format.mbz, Instr.mnemonic, Instr.wellFormed, extractLsb'_areaOf, Config.chunkMax]

/-- A row reads commands of its line's mnemonic from every operand area. -/
theorem mnemonic_read (a : Area) : ∀ r ∈ opcodeRows, (r.read a).mnemonic = r.line.mnemonic := by
  simp [opcodeRows, systemRows, spnRows, feistelRows, lfsrRows, OpcodeRow.line, Instr.mnemonic]

theorem accepts_line_iff (r : OpcodeRow) (w : Word) :
    r.line.Accepts w ↔ r.op = opcodeOf w ∧ readRow r (areaOf w) = .ok (r.read (areaOf w)) := by
  simp only [MapLine.Accepts, OpcodeRow.line, and_mask_eq_pattern_iff, readRow_eq_ok_iff, and_true, and_assoc]

/-- Settles O3: a line of the map is the line of a row, and accepts the words that row decodes. -/
theorem decodeAcceptsExactlyTheOpcodeMap : Obligations.DecodeAcceptsExactlyTheOpcodeMap := by
  intro w m
  rw [opcodeMap_eq_map_line]
  constructor
  · rintro ⟨i, hdec, rfl⟩
    obtain ⟨r, hr, hop, hread⟩ := (decode_eq_ok_iff w i).mp hdec
    obtain ⟨-, -, rfl⟩ := (readRow_eq_ok_iff r _ i).mp hread
    exact ⟨r.line, List.mem_map_of_mem hr, (mnemonic_read _ r hr).symm, (accepts_line_iff r w).mpr ⟨hop, hread⟩⟩
  · rintro ⟨l, hl, rfl, haccepts⟩
    obtain ⟨r, hr, rfl⟩ := List.mem_map.mp hl
    exact ⟨_, (decode_eq_ok_iff w _).mpr ⟨r, hr, (accepts_line_iff r w).mp haccepts⟩, mnemonic_read _ r hr⟩

end Sys2Proof
end

section
/-! A command's own word decodes to the command (R74, R75), for a command whose row reads its operand area back. -/

open Sys2Proof.Laws

namespace Sys2Proof

/-- The row found under the command's opcode keeps its must-be-zero bits, so decoding rests on what the row reads. -/
theorem decode_encode_of_read {i : Instr} {r : OpcodeRow} (hform : EncodeForm.Statement i)
    (hrow : rowOf (opcode i) = some r) (hread : r.read (operandArea i) = i) (hwf : i.wellFormed = true) :
    decode (encode i) = .ok i := by
  obtain ⟨q, hq, -, hmbz⟩ := hform
  rw [opcodeOf_encode] at hq
  obtain rfl : q = r := Option.some.inj (hq.symm.trans hrow)
  have hread' : q.read (areaOf (encode i)) = i := by rw [areaOf_encode, hread]
  have hreadRow : readRow q (areaOf (encode i)) = .ok i :=
    (readRow_eq_ok_iff q _ i).mpr ⟨hmbz, by rw [hread', hwf], hread'⟩
  obtain ⟨hmem, hop⟩ := mem_and_op_of_rowOf hq
  exact (decode_eq_ok_iff _ i).mpr ⟨q, hmem, hop.trans (opcodeOf_encode i).symm, hreadRow⟩

/-- The word of a command whose operand is one byte (format b of R71): the byte under three bytes p that do not vary. -/
theorem encode_of_byte_operand {i : Instr} (p : BitVec 24) {v : Byte} (hp : p = opcode i ++ 0#16)
    (harea : operandArea i = 0#16 ++ v) : encode i = p ++ v := by
  rw [encode, harea, hp]
  exact BitVec.append_assoc'

theorem decode_sldb (v : Byte) : decode (0x100000#24 ++ v) = .ok (.sldb v) := by
  rw [← encode_of_byte_operand (i := .sldb v) 0x100000#24 (by simp [opcode]) rfl]
  exact decode_encode_of_read (EncodeForm.sldb v) rfl (congrArg Instr.sldb (extractLsb'_append_low _ v)) rfl

theorem decode_sldk (v : Byte) : decode (0x110000#24 ++ v) = .ok (.sldk v) := by
  rw [← encode_of_byte_operand (i := .sldk v) 0x110000#24 (by simp [opcode]) rfl]
  exact decode_encode_of_read (EncodeForm.sldk v) rfl (congrArg Instr.sldk (extractLsb'_append_low _ v)) rfl

theorem decode_sldrk (v : Byte) : decode (0x120000#24 ++ v) = .ok (.sldrk v) := by
  rw [← encode_of_byte_operand (i := .sldrk v) 0x120000#24 (by simp [opcode]) rfl]
  exact decode_encode_of_read (EncodeForm.sldrk v) rfl (congrArg Instr.sldrk (extractLsb'_append_low _ v)) rfl

end Sys2Proof
end

section
/-! The SPN primitives (spec/40_spn_primitives.md): what the tables and the position mappings do to a block's groups and
bits (R100 to R103), and what each command writes to SB and answers (R104 to R112). -/

namespace Sys2Proof.Machine

/-! ### The functions, group by group and bit by bit -/

theorem extractLsb'_mapGroups (t : BitVec 2 → BitVec 2) (x : Byte) {g : Nat} (hg : g < 4) :
    (mapGroups t x).extractLsb' (6 - 2 * g) 2 = t (x.extractLsb' (6 - 2 * g) 2) := by
  obtain ⟨h0, h1, h2, h3⟩ := extract_groups (t (x.extractLsb' 6 2)) (t (x.extractLsb' 4 2))
    (t (x.extractLsb' 2 2)) (t (x.extractLsb' 0 2))
  interval_cases g
  · exact h0
  · exact h1
  · exact h2
  · exact h3

/-- The table of R100. -/
theorem toNat_sbox (g : BitVec 2) : (sbox g).toNat = [2, 0, 3, 1].getD g.toNat 0 := by revert g; decide

/-- The table of R101. -/
theorem toNat_invSbox (g : BitVec 2) : (invSbox g).toNat = [1, 3, 0, 2].getD g.toNat 0 := by revert g; decide

theorem getMsbD_firstHalf (x : Byte) {j : Nat} (hj : j < 4) : (firstHalf x).getMsbD j = x.getMsbD j := by
  interval_cases j <;> simp [firstHalf, BitVec.getMsbD]

theorem getMsbD_secondHalf (x : Byte) {j : Nat} (hj : j < 4) : (secondHalf x).getMsbD j = x.getMsbD (4 + j) := by
  interval_cases j <;> simp [secondHalf, BitVec.getMsbD]

theorem getMsbD_ofBool_append (a b c d : Bool) {i : Nat} (hi : i < 4) :
    (BitVec.ofBool a ++ BitVec.ofBool b ++ BitVec.ofBool c ++ BitVec.ofBool d).getMsbD i = [a, b, c, d].getD i false := by
  revert a b c d i
  decide

theorem getMsbD_permuteHalf (m0 m1 m2 m3 : Nat) (v : BitVec 4) {i : Nat} (hi : i < 4) :
    (permuteHalf m0 m1 m2 m3 v).getMsbD i = v.getMsbD ([m0, m1, m2, m3].getD i 0) := by
  rw [permuteHalf, getMsbD_ofBool_append _ _ _ _ hi]
  interval_cases i <;> rfl

/-- A mapping applied within each half moves bits inside their half: half h counts its positions from 4h. -/
theorem getMsbD_permuteHalves {m0 m1 m2 m3 : Nat} (hm : ∀ i < 4, [m0, m1, m2, m3].getD i 0 < 4) (x : Byte) {h i : Nat}
    (hh : h < 2) (hi : i < 4) :
    (permuteHalf m0 m1 m2 m3 (firstHalf x) ++ permuteHalf m0 m1 m2 m3 (secondHalf x)).getMsbD (4 * h + i) =
      x.getMsbD (4 * h + [m0, m1, m2, m3].getD i 0) := by
  interval_cases h
  · rw [BitVec.getMsbD_append, if_neg (by omega), Nat.mul_zero, Nat.zero_add, Nat.zero_add,
      getMsbD_permuteHalf _ _ _ _ _ hi, getMsbD_firstHalf x (hm i hi)]
  · rw [BitVec.getMsbD_append, if_pos (by omega), Nat.mul_one, Nat.add_sub_cancel_left,
      getMsbD_permuteHalf _ _ _ _ _ hi, getMsbD_secondHalf x (hm i hi)]

theorem getMsbD_permute (x : Byte) {h i : Nat} (hh : h < 2) (hi : i < 4) :
    (permute x).getMsbD (4 * h + i) = x.getMsbD (4 * h + [2, 0, 1, 3].getD i 0) :=
  getMsbD_permuteHalves (by decide) x hh hi

theorem getMsbD_invPermute (x : Byte) {h i : Nat} (hh : h < 2) (hi : i < 4) :
    (invPermute x).getMsbD (4 * h + i) = x.getMsbD (4 * h + [1, 2, 0, 3].getD i 0) :=
  getMsbD_permuteHalves (by decide) x hh hi

/-! ### Commands that write SB -/

/-- The command always completes, writes SB with a function of the SPN registers, answers the new SB, and changes
nothing else. -/
def WritesSb (i : Instr) (f : Spn → Byte) : Prop :=
  ∀ s : State, exec i s = .next ((s.setSb (f s.spn)).respond ⟨.ok, zext24 (f s.spn)⟩)

theorem writesSb_sldb (v : Byte) : WritesSb (.sldb v) fun _ => v := fun _ => rfl

theorem writesSb_sxor : WritesSb .sxor fun r => r.sb ^^^ r.srk := fun _ => rfl

theorem writesSb_ssub : WritesSb .ssub fun r => substitute r.sb := execSsub_eq

theorem writesSb_sisub : WritesSb .sisub fun r => invSubstitute r.sb := execSisub_eq

theorem writesSb_sperm : WritesSb .sperm fun r => permute r.sb := fun _ => rfl

theorem writesSb_siperm : WritesSb .siperm fun r => invPermute r.sb := fun _ => rfl

/-- Two such commands in a row restore the SPN registers when the second's function gives back the SB of before. -/
theorem WritesSb.restores {i j : Instr} {f g : Spn → Byte} (hi : WritesSb i f) (hj : WritesSb j g)
    (hundo : ∀ r : Spn, g { r with sb := f r } = r.sb) (s : State) :
    ∃ t u, exec i s = .next t ∧ exec j t = .next u ∧ u.spn = s.spn :=
  ⟨_, _, hi s, hj _, congrArg (Spn.mk · s.spn.sk s.spn.srk) (hundo s.spn)⟩

/-! ### The obligations -/

/-- Settles O26: the blocks are those of substitute and inv_substitute, which look up each group in the tables. -/
theorem substitutionsLookUpEachGroup : Obligations.SubstitutionsLookUpEachGroup := by
  intro s
  refine ⟨substitute s.spn.sb, invSubstitute s.spn.sb, ?_, ?_, writesSb_ssub s, writesSb_sisub s, rfl, rfl⟩
  · intro g hg
    rw [substitute, extractLsb'_mapGroups sbox _ hg, toNat_sbox]
  · intro g hg
    rw [invSubstitute, extractLsb'_mapGroups invSbox _ hg, toNat_invSbox]

/-- Settles O27: the blocks are those of permute and inv_permute. -/
theorem permutationsMoveEachBit : Obligations.PermutationsMoveEachBit := fun s =>
  ⟨permute s.spn.sb, invPermute s.spn.sb, fun _ _ => getMsbD_permute s.spn.sb, fun _ _ => getMsbD_invPermute s.spn.sb,
    writesSb_sperm s, writesSb_siperm s, rfl, rfl⟩

/-- Settles O31: the laws of the functions, carried to the commands; the four values show that no function is its own
inverse. -/
theorem spnPrimitivesUndoEachOther : Obligations.SpnPrimitivesUndoEachOther := by
  refine ⟨fun s => ⟨?_, ?_, ?_, ?_⟩,
    ⟨invSubstitute_substitute, substitute_invSubstitute, invPermute_permute, permute_invPermute⟩, by decide⟩
  · exact writesSb_ssub.restores writesSb_sisub (fun r => invSubstitute_substitute r.sb) s
  · exact writesSb_sisub.restores writesSb_ssub (fun r => substitute_invSubstitute r.sb) s
  · exact writesSb_sperm.restores writesSb_siperm (fun r => invPermute_permute r.sb) s
  · exact writesSb_siperm.restores writesSb_sperm (fun r => permute_invPermute r.sb) s

/-- Settles O23: SLDB writes and answers its operand; SLDRK and SLDK leave SB as it is and answer it. -/
theorem spnLoadsStoreTheirOperand : Obligations.SpnLoadsStoreTheirOperand := fun s v =>
  ⟨⟨writesSb_sldb v s, decode_sldb v⟩, ⟨rfl, decode_sldrk v⟩, ⟨rfl, decode_sldk v⟩⟩

/-- Settles O25: the second issue cancels the round key. -/
theorem sxorAppliesTheRoundKey : Obligations.SxorAppliesTheRoundKey := by
  intro s
  have hcancel : ∀ r : Spn, r.sb ^^^ r.srk ^^^ r.srk = r.sb := fun r => xor_cancel_right r.sb r.srk
  obtain ⟨t, u, ht, hu, hspn⟩ := writesSb_sxor.restores writesSb_sxor hcancel s
  exact ⟨t, u, ht, Host.Outcome.next.inj (ht.symm.trans (writesSb_sxor s)), hu, hspn, rfl⟩

theorem srd_selector_cases : ∀ sel : BitVec 2, sel ≠ 3#2 → sel = 0#2 ∨ sel = 1#2 ∨ sel = 2#2 := by decide

/-- Settles O33: each selector but 3 reads its own register, and all three hold 0 after reset. -/
theorem srdAnswersTheSelectedRegister : Obligations.SrdAnswersTheSelectedRegister := by
  refine ⟨fun s => ⟨rfl, rfl, rfl⟩, ?_, rfl, rfl, rfl, rfl⟩
  intro sel hsel
  obtain rfl | rfl | rfl := srd_selector_cases sel hsel
  · rfl
  · rfl
  · rfl

end Sys2Proof.Machine
end

section
/-! The SPN cipher (spec/41_spn_cipher.md): the round keys SKDER derives, the rounds and the 2-round cipher as commands
that write SB, and that decryption undoes encryption (R120 to R129). -/

namespace Sys2Proof.Machine

/-! ### The 2-round cipher (R122, R129) -/

theorem spnDecrypt_spnEncrypt (p k : Byte) : spnDecrypt (spnEncrypt p k) k = p := by
  rw [spnDecrypt, spnEncrypt, roundDecrypt_roundEncrypt, roundDecrypt_roundEncrypt]

theorem spnEncrypt_spnDecrypt (c k : Byte) : spnEncrypt (spnDecrypt c k) k = c := by
  rw [spnEncrypt, spnDecrypt, roundEncrypt_roundDecrypt, roundEncrypt_roundDecrypt]

/-! ### The commands -/

/-- SKDER writes the chosen round key of SK to SRK and answers SB, which it leaves as it is (R124). -/
theorem exec_skder (h : BitVec 1) (s : State) :
    exec (.skder h) s =
      .next ((s.setSrk (if h = 0#1 then key1 s.spn.sk else key2 s.spn.sk)).respond ⟨.ok, zext24 s.spn.sb⟩) := rfl

theorem writesSb_srenc : WritesSb .srenc fun r => roundEncrypt r.sb r.srk := execSrenc_eq

theorem writesSb_srdec : WritesSb .srdec fun r => roundDecrypt r.sb r.srk := execSrdec_eq

theorem writesSb_senc : WritesSb .senc fun r => spnEncrypt r.sb r.sk := execSenc_eq

theorem writesSb_sdec : WritesSb .sdec fun r => spnDecrypt r.sb r.sk := execSdec_eq

/-! ### The obligations -/

/-- Settles O32: the laws of the round, and from them those of the cipher, carried to the commands; SK and SRK hold the
same keys for the second command as for the first. -/
theorem spnDecryptionUndoesEncryption : Obligations.SpnDecryptionUndoesEncryption := by
  refine ⟨fun b k => ⟨roundDecrypt_roundEncrypt b k, roundEncrypt_roundDecrypt b k, spnDecrypt_spnEncrypt b k⟩,
    fun s => ⟨?_, ?_, ?_⟩⟩
  · exact writesSb_senc.restores writesSb_sdec (fun r => spnDecrypt_spnEncrypt r.sb r.sk) s
  · exact writesSb_sdec.restores writesSb_senc (fun r => spnEncrypt_spnDecrypt r.sb r.sk) s
  · exact writesSb_srenc.restores writesSb_srdec (fun r => roundDecrypt_roundEncrypt r.sb r.srk) s

/-- Settles O24: the two round keys of R122 are the halves of SK, each written twice. -/
theorem skderWritesAHalfTwice : Obligations.SkderWritesAHalfTwice := fun s =>
  ⟨exec_skder 0#1 s, exec_skder 1#1 s, rfl, rfl⟩

/-- Settles O28: the round and the inverse round are these compositions by definition (R120, R121). -/
theorem spnRoundsCompose : Obligations.SpnRoundsCompose := fun s =>
  ⟨writesSb_srenc s, writesSb_srdec s, rfl, rfl⟩

/-- Settles O29: k1 and k2 are the round keys of R122, so the rounds are the cipher's. -/
theorem spnCipherTakesKeyHalves : Obligations.SpnCipherTakesKeyHalves := by
  rintro s _ _ rfl rfl
  exact ⟨writesSb_senc s, writesSb_sdec s, rfl, rfl⟩

end Sys2Proof.Machine
end

section
/-! The words of the Feistel commands (R71, R75): fixed bits over the last operand; each decodes to its command. -/

open Sys2Proof.Laws

namespace Sys2Proof

/-- The word of a command whose last operand v fills the low bits: the operand under the bits p above it. -/
theorem encode_of_last_operand {i : Instr} {m n : Nat} (hmn : m + n = 24) {z : BitVec m} {v : BitVec n}
    {p : BitVec (8 + m)} (hp : p = opcode i ++ z) (harea : operandArea i = (z ++ v).cast hmn) :
    encode i = (p ++ v).cast (by omega) := by
  rw [encode, harea, hp, BitVec.append_assoc, BitVec.cast_cast]
  exact (BitVec.cast_append_right _ _ _).symm

theorem encode_fldb (v : Wide) : encode (.fldb v) = 0x2000#16 ++ v :=
  encode_of_last_operand (z := 0#8) rfl (show 0x2000#16 = 0x20#8 ++ 0#8 by decide) rfl

theorem encode_fkpush (v : Byte) : encode (.fkpush v) = 0x220000#24 ++ v :=
  encode_of_byte_operand _ (show 0x220000#24 = 0x22#8 ++ 0#16 by decide) rfl

theorem encode_ff (a b : Byte) : encode (.ff a b) = 0x2300#16 ++ a ++ b := by
  have hfixed : 0x2300#16 ++ a = 0x23#8 ++ (0#8 ++ a) := by
    rw [show 0x2300#16 = 0x23#8 ++ 0#8 by decide]
    exact BitVec.append_assoc
  exact encode_of_last_operand (z := 0#8 ++ a) rfl hfixed rfl

theorem encode_frnd (k : Byte) : encode (.frnd k) = 0x240000#24 ++ k :=
  encode_of_byte_operand _ (show 0x240000#24 = 0x24#8 ++ 0#16 by decide) rfl

theorem encode_firnd (k : Byte) : encode (.firnd k) = 0x250000#24 ++ k :=
  encode_of_byte_operand _ (show 0x250000#24 = 0x25#8 ++ 0#16 by decide) rfl

theorem encode_fencn (n : BitVec 5) : encode (.fencn n) = 0x270000#24 ++ 0#3 ++ n :=
  encode_of_last_operand (z := 0#19) rfl (show 0x270000#24 ++ 0#3 = 0x27#8 ++ 0#19 by decide) rfl

theorem encode_fdecn (n : BitVec 5) : encode (.fdecn n) = 0x290000#24 ++ 0#3 ++ n :=
  encode_of_last_operand (z := 0#19) rfl (show 0x290000#24 ++ 0#3 = 0x29#8 ++ 0#19 by decide) rfl

theorem encode_frd_entry (idx : BitVec 4) : encode (.frd 2#2 idx) = 0x2A00020#28 ++ idx :=
  encode_of_last_operand (z := 0#14 ++ 2#2 ++ 0#4) rfl
    (show 0x2A00020#28 = 0x2A#8 ++ (0#14 ++ 2#2 ++ 0#4) by decide) rfl

theorem decode_fldb (v : Wide) : decode (0x2000#16 ++ v) = .ok (.fldb v) := by
  rw [← encode_fldb]
  exact decode_encode_of_read (EncodeForm.fldb v) rfl (congrArg Instr.fldb (extractLsb'_append_low _ v)) rfl

theorem decode_fkpush (v : Byte) : decode (0x220000#24 ++ v) = .ok (.fkpush v) := by
  rw [← encode_fkpush]
  exact decode_encode_of_read (EncodeForm.fkpush v) rfl (congrArg Instr.fkpush (extractLsb'_append_low _ v)) rfl

theorem decode_ff (a b : Byte) : decode (0x2300#16 ++ a ++ b) = .ok (.ff a b) := by
  have hhalf : (0#8 ++ a ++ b).extractLsb' 8 8 = a := by
    rw [BitVec.extractLsb'_append_eq_of_le (Nat.le_refl 8)]
    exact extractLsb'_append_low _ a
  rw [← encode_ff]
  exact decode_encode_of_read (EncodeForm.ff a b) rfl (congrArg₂ Instr.ff hhalf (extractLsb'_append_low _ b)) rfl

theorem decode_frnd (k : Byte) : decode (0x240000#24 ++ k) = .ok (.frnd k) := by
  rw [← encode_frnd]
  exact decode_encode_of_read (EncodeForm.frnd k) rfl (congrArg Instr.frnd (extractLsb'_append_low _ k)) rfl

theorem decode_firnd (k : Byte) : decode (0x250000#24 ++ k) = .ok (.firnd k) := by
  rw [← encode_firnd]
  exact decode_encode_of_read (EncodeForm.firnd k) rfl (congrArg Instr.firnd (extractLsb'_append_low _ k)) rfl

theorem decode_fencn (n : BitVec 5) : decode (0x270000#24 ++ 0#3 ++ n) = .ok (.fencn n) := by
  rw [← encode_fencn]
  exact decode_encode_of_read (EncodeForm.fencn n) rfl (congrArg Instr.fencn (extractLsb'_append_low _ n)) rfl

theorem decode_fdecn (n : BitVec 5) : decode (0x290000#24 ++ 0#3 ++ n) = .ok (.fdecn n) := by
  rw [← encode_fdecn]
  exact decode_encode_of_read (EncodeForm.fdecn n) rfl (congrArg Instr.fdecn (extractLsb'_append_low _ n)) rfl

theorem decode_frd_entry (idx : BitVec 4) : decode (0x2A00020#28 ++ idx) = .ok (.frd 2#2 idx) := by
  have hsel : (0#14 ++ 2#2 ++ 0#4 ++ idx).extractLsb' 8 2 = 2#2 := by
    rw [BitVec.extractLsb'_append_eq_of_le (by decide)]
    decide
  rw [← encode_frd_entry]
  exact decode_encode_of_read (EncodeForm.frd 2#2 idx) rfl
    (congrArg₂ Instr.frd hsel (extractLsb'_append_low _ idx)) rfl

end Sys2Proof
end

section
/-! The Feistel functions (spec/42_feistel.md): F bit by bit (R141), the round and its inverse (R142, R143), and the
halves after each round of a run over a key list (R144, R145). -/

namespace Sys2Proof.Machine

theorem getLsbD_rotl8_succ (x : Byte) {i : Nat} (hi : i + 1 < 8) : (rotl8 x).getLsbD (i + 1) = x.getLsbD i := by
  have hwrap : x.getLsbD (7 + (i + 1)) = false := BitVec.getLsbD_of_ge x _ (by omega)
  simp [rotl8, hi, hwrap, BitVec.getLsbD_eq_getElem (Nat.lt_of_succ_lt hi)]

theorem getLsbD_rotl8_zero (x : Byte) : (rotl8 x).getLsbD 0 = x.getLsbD 7 := by simp [rotl8]

theorem isF_fFunction (h k : Byte) : IsF h k (fFunction h k) := by
  refine ⟨?_, getLsbD_rotl8_zero _⟩
  intro i h1 hi
  obtain ⟨j, rfl⟩ := Nat.exists_eq_add_of_le' h1
  exact getLsbD_rotl8_succ _ hi

/-- The inverse round is the round with the halves exchanged on the way in and on the way out (R143). -/
theorem feistelInvRound_eq_swap_feistelRound (b : Byte × Byte) (k : Byte) :
    feistelInvRound b k = (feistelRound b.swap k).swap := rfl

theorem joinHalves_leftHalf_rightHalf (v : Wide) : joinHalves (leftHalf v) (rightHalf v) = v :=
  BitVec.extractLsb'_append_extractLsb'

/-! ### The keys of a run -/

theorem getElem?_fk (f : Feistel) {i : Nat} (hi : i < 16) : f.fk[i]? = some (keyAt f i) := by simp [keyAt, hi]

theorem getElem?_keysBelow (f : Feistel) {i n : Nat} (hi : i < n) : (keysBelow f n)[i]? = some (keyAt f i) := by
  simp [keysBelow, hi]

theorem getElem?_reverse_keysBelow (f : Feistel) {j n : Nat} (hj : j < n) :
    (keysBelow f n).reverse[j]? = some (keyAt f (n - 1 - j)) := by
  rw [List.getElem?_reverse (by rwa [length_keysBelow]), length_keysBelow, getElem?_keysBelow f (by omega)]

/-! ### The halves after each round -/

/-- The halves after the first i encryption rounds (R144). -/
def encryptedHalves (f : Feistel) (i : Nat) : Byte × Byte := feistelEncrypt (blockOf f) (keysBelow f i)

theorem encryptedHalves_succ (f : Feistel) (i : Nat) :
    encryptedHalves f (i + 1) = feistelRound (encryptedHalves f i) (keyAt f i) := by
  rw [encryptedHalves, keysBelow_succ, feistelEncrypt, List.foldl_append]
  rfl

/-- The halves after the first j inverse rounds of a decryption with n keys (R145). -/
def decryptedHalves (f : Feistel) (n j : Nat) : Byte × Byte :=
  ((keysBelow f n).reverse.take j).foldl feistelInvRound (blockOf f)

theorem decryptedHalves_succ (f : Feistel) {n j : Nat} (hj : j < n) :
    decryptedHalves f n (j + 1) = feistelInvRound (decryptedHalves f n j) (keyAt f (n - 1 - j)) := by
  rw [decryptedHalves, List.take_add_one, getElem?_reverse_keysBelow f hj, List.foldl_append]
  rfl

/-- All n inverse rounds are the decryption. -/
theorem decryptedHalves_self (f : Feistel) (n : Nat) :
    decryptedHalves f n n = feistelDecrypt (blockOf f) (keysBelow f n) := by
  rw [decryptedHalves, List.take_of_length_le (by simp), feistelDecrypt]

end Sys2Proof.Machine
end

section
/-! The commands of the Feistel engine (spec/42_feistel.md R147 to R157): what each writes and answers, and when it is
refused. -/

namespace Sys2Proof.Machine

open Host (Outcome)

/-! ### Commands that write the block -/

/-- The command always completes, writes FL and FR with a function of the two, answers the new block, and changes
nothing else. -/
def WritesBlock (i : Instr) (f : Byte × Byte → Byte × Byte) : Prop :=
  ∀ s : State, exec i s = replyBlock (s.setBlock (f (blockOf s.feistel)))

theorem writesBlock_fldb (v : Wide) : WritesBlock (.fldb v) fun _ => (leftHalf v, rightHalf v) := fun _ => rfl

theorem writesBlock_frnd (k : Byte) : WritesBlock (.frnd k) (feistelRound · k) := execFrnd_eq k

theorem writesBlock_firnd (k : Byte) : WritesBlock (.firnd k) (feistelInvRound · k) := execFirnd_eq k

/-- Writing the block and answering it, in the words of the state before. -/
theorem replyBlock_setBlock {φ ρ : Type} (s : State) (b : Byte × Byte) :
    (replyBlock (s.setBlock b) : Outcome State φ ρ) =
      .next ((s.setBlock b).respond ⟨.ok, zext24 (joinHalves b.1 b.2)⟩) := rfl

theorem replyBlock_completes {φ ρ : Type} (s : State) : ∃ t, (replyBlock s : Outcome State φ ρ) = .next t ∧
    t.responses.getLast? = some ⟨.ok, (t.feistel.fl ++ t.feistel.fr).setWidth 24⟩ :=
  ⟨_, rfl, List.getLast?_concat⟩

/-- Two such commands in a row restore the Feistel registers when the second's function undoes the first's. -/
theorem WritesBlock.restores {i j : Instr} {f g : Byte × Byte → Byte × Byte} (hi : WritesBlock i f)
    (hj : WritesBlock j g) (hundo : Undoes g f) (s : State) :
    ∃ a b, exec i s = .next a ∧ exec j a = .next b ∧ b.feistel = s.feistel := by
  refine ⟨_, _, hi s, hj _, ?_⟩
  exact congrArg (fun b : Byte × Byte => { s.feistel with fl := b.1, fr := b.2 }) (hundo (blockOf s.feistel))

/-! ### Ciphers of a checked round count -/

theorem roundCountError_of_lt {f : Feistel} {n : Nat} (h : f.fkn.toNat < n) :
    roundCountError f n = some .invalidArgument := if_pos h

theorem exec_fencn_of_lt {s : State} {m : BitVec 5} (h : s.feistel.fkn.toNat < m.toNat) :
    exec (.fencn m) s = raise .invalidArgument s := by
  rw [exec, execFencn_eq, roundCountError_of_lt h, guarded_some]

theorem exec_fencn_of_le {s : State} {m : BitVec 5} (h : m.toNat ≤ s.feistel.fkn.toNat) :
    exec (.fencn m) s = replyBlock (s.setBlock (encryptedHalves s.feistel m.toNat)) := by
  rw [exec, execFencn_eq, (roundCountError_eq_none _ _).mpr h, guarded_none, encryptedHalves]

theorem exec_fenc_eq_fencn (s : State) : exec .fenc s = exec (.fencn s.feistel.fkn) s :=
  (execFenc_eq s).trans (exec_fencn_of_le (Nat.le_refl _)).symm

theorem exec_fdecn_of_lt {s : State} {m : BitVec 5} (h : s.feistel.fkn.toNat < m.toNat) :
    exec (.fdecn m) s = raise .invalidArgument s := by
  rw [exec, execFdecn_eq, roundCountError_of_lt h, guarded_some]

theorem exec_fdecn_of_le {s : State} {m : BitVec 5} (h : m.toNat ≤ s.feistel.fkn.toNat) :
    exec (.fdecn m) s = replyBlock (s.setBlock (decryptedHalves s.feistel m.toNat m.toNat)) := by
  rw [exec, execFdecn_eq, (roundCountError_eq_none _ _).mpr h, guarded_none, decryptedHalves_self]

theorem exec_fdec_eq_fdecn (s : State) : exec .fdec s = exec (.fdecn s.feistel.fkn) s := by
  rw [exec_fdecn_of_le (Nat.le_refl _), decryptedHalves_self]
  exact execFdec_eq s

/-! ### The key table -/

theorem exec_fkpush_of_lt {s : State} (v : Byte) (h : s.feistel.fkn.toNat < 16) :
    exec (.fkpush v) s = replyBlock (s.pushKey v) := by
  rw [exec, execFkpush, Config.fkDepth, if_neg h.ne, guarded_none]

theorem exec_fkpush_of_eq {s : State} (v : Byte) (h : s.feistel.fkn.toNat = 16) :
    exec (.fkpush v) s = raise .capacityExceeded s := by
  rw [exec, execFkpush, Config.fkDepth, if_pos h, guarded_some]

theorem getElem?_fk_pushKey_self {s : State} (v : Byte) (h : s.feistel.fkn.toNat < 16) :
    (s.pushKey v).feistel.fk[s.feistel.fkn.toNat]? = some v := by simp [h]

theorem getElem?_fk_pushKey_of_ne {s : State} (v : Byte) {i : Nat} (h : i ≠ s.feistel.fkn.toNat) :
    (s.pushKey v).feistel.fk[i]? = s.feistel.fk[i]? := by simp [h.symm]

theorem toNat_fkn_pushKey {s : State} (v : Byte) (h : s.feistel.fkn.toNat < 16) :
    (s.pushKey v).feistel.fkn.toNat = s.feistel.fkn.toNat + 1 := by
  rw [State.pushKey_fkn, BitVec.toNat_add]
  exact Nat.mod_eq_of_lt (show s.feistel.fkn.toNat + 1 < 32 by omega)

/-- FRD of an entry checks the index against FKN before it answers (R157). -/
theorem exec_frd_entry (idx : BitVec 4) (s : State) :
    exec (.frd 2#2 idx) s =
      guarded (if s.feistel.fkn.toNat ≤ idx.toNat then some .indexOutOfRange else none) s
        (reply (zext24 (keyAt s.feistel idx.toNat)) s) := rfl

theorem exec_frd_entry_of_lt {s : State} {idx : BitVec 4} (h : idx.toNat < s.feistel.fkn.toNat) :
    exec (.frd 2#2 idx) s = reply (zext24 (keyAt s.feistel idx.toNat)) s := by
  rw [exec_frd_entry, if_neg (Nat.not_le.mpr h), guarded_none]

theorem exec_frd_entry_of_le {s : State} {idx : BitVec 4} (h : s.feistel.fkn.toNat ≤ idx.toNat) :
    exec (.frd 2#2 idx) s = raise .indexOutOfRange s := by
  rw [exec_frd_entry, if_pos h, guarded_some]

/-! ### The obligations -/

/-- Settles O36: the table and the count are those of the push, which only a full table refuses. -/
theorem fkpushAppendsOneKey : Obligations.FkpushAppendsOneKey := by
  intro s v
  refine ⟨?_, exec_fkpush_of_eq v, decode_fkpush v⟩
  intro hroom
  exact ⟨_, _, getElem?_fk_pushKey_self v hroom, fun _ => getElem?_fk_pushKey_of_ne v, toNat_fkn_pushKey v hroom,
    exec_fkpush_of_lt v hroom⟩

/-- Settles O37: F's bits are the rotate of half XOR key. -/
theorem ffAnswersF : Obligations.FfAnswersF := fun _ a b =>
  ⟨fFunction a b, isF_fFunction a b, rfl, decode_ff a b⟩

/-- Settles O38: each command writes the block with its round function, whose F takes the half that is passed on. -/
theorem feistelRoundCommands : Obligations.FeistelRoundCommands := fun s k =>
  ⟨⟨_, isF_fFunction s.feistel.fr k, writesBlock_frnd k s⟩, ⟨_, isF_fFunction s.feistel.fl k, writesBlock_firnd k s⟩,
    decode_frnd k, decode_firnd k⟩

/-- Settles O39: the laws of the functions, carried to the commands. -/
theorem feistelRoundsUndoEachOther : Obligations.FeistelRoundsUndoEachOther := by
  refine ⟨fun b k => ⟨feistelInvRound_feistelRound b k, feistelRound_feistelInvRound b k,
    feistelInvRound_eq_swap_feistelRound b k⟩, fun s k => ⟨?_, ?_⟩⟩
  · exact (writesBlock_frnd k).restores (writesBlock_firnd k) (feistelInvRound_feistelRound · k) s
  · exact (writesBlock_firnd k).restores (writesBlock_frnd k) (feistelRound_feistelInvRound · k) s

/-- Settles O40: the halves are those after each round; FKN at most 16 puts the key of every round inside
the table. -/
theorem fencRunsTheRounds : Obligations.FencRunsTheRounds := by
  intro s m hfkn
  refine ⟨exec_fencn_of_lt, ?_, exec_fenc_eq_fencn s, replyBlock_completes _, rfl, decode_fencn m⟩
  intro hm
  refine ⟨fun i => (encryptedHalves s.feistel i).1, fun i => (encryptedHalves s.feistel i).2, rfl, rfl, ?_,
    exec_fencn_of_le hm⟩
  intro i hi
  have hround := encryptedHalves_succ s.feistel i
  exact ⟨_, _, getElem?_fk s.feistel (by omega), isF_fFunction _ _, congrArg Prod.fst hround,
    congrArg Prod.snd hround⟩

/-- Settles O41: the halves are those after each inverse round; the j-th takes the key at place j from the end. -/
theorem fdecRunsTheInverseRounds : Obligations.FdecRunsTheInverseRounds := by
  intro s m hfkn
  refine ⟨exec_fdecn_of_lt, ?_, exec_fdec_eq_fdecn s, replyBlock_completes _, rfl, decode_fdecn m⟩
  intro hm
  refine ⟨fun j => (decryptedHalves s.feistel m.toNat j).1, fun j => (decryptedHalves s.feistel m.toNat j).2, rfl,
    rfl, ?_, exec_fdecn_of_le hm⟩
  intro j hj
  have hround := decryptedHalves_succ s.feistel hj
  exact ⟨_, _, getElem?_fk s.feistel (by omega), isF_fFunction _ _, congrArg Prod.fst hround,
    congrArg Prod.snd hround⟩

/-- Settles O43: the index check splits the reads of entries; after reset no index passes it. -/
theorem frdAnswersTheSelectedValue : Obligations.FrdAnswersTheSelectedValue := by
  refine ⟨⟨rfl, rfl, fun idx => exec_frd_entry_of_le (Nat.zero_le _)⟩, fun s => ⟨rfl, rfl, ?_, ?_, rfl, rfl,
    decode_frd_entry⟩⟩
  · intro idx h
    exact ⟨_, getElem?_fk s.feistel idx.isLt, exec_frd_entry_of_lt h⟩
  · intro idx h
    exact exec_frd_entry_of_le h

/-- Settles O34: the two halves joined again are the operand. -/
theorem fldbLoadsTheBlock : Obligations.FldbLoadsTheBlock := by
  intro s v
  refine ⟨?_, decode_fldb v⟩
  rw [writesBlock_fldb v s, replyBlock_setBlock, joinHalves_leftHalf_rightHalf]
  rfl

/-- Settles O35: no index is below a count of 0. -/
theorem fkclrEmptiesTheSequence : Obligations.FkclrEmptiesTheSequence := by
  intro s idx
  refine ⟨rfl, ?_, rfl⟩
  rintro _ ⟨⟩
  exact exec_frd_entry_of_le (Nat.zero_le _)

end Sys2Proof.Machine
end

section
/-! The words of the LFSR commands (R71, R75): fixed bits over the operands; each decodes to its command. -/

open Sys2Proof.Laws

namespace Sys2Proof

theorem encode_llds (w : BitVec 5) (v : Wide) : encode (.llds w v) = 0x30#8 ++ 0#3 ++ w ++ v :=
  encode_of_last_operand (z := 0#3 ++ w) rfl BitVec.append_assoc rfl

theorem encode_lldt (v : Wide) : encode (.lldt v) = 0x3100#16 ++ v :=
  encode_of_last_operand (z := 0#8) rfl (show 0x3100#16 = 0x31#8 ++ 0#8 by decide) rfl

theorem encode_lsetd (d : BitVec 2) : encode (.lsetd d) = 0x32#8 ++ 0#22 ++ d :=
  encode_of_last_operand (z := 0#22) rfl rfl rfl

theorem encode_lrd (sel : BitVec 2) : encode (.lrd sel) = 0x37#8 ++ 0#22 ++ sel :=
  encode_of_last_operand (z := 0#22) rfl rfl rfl

theorem decode_llds (w : BitVec 5) (v : Wide) : decode (0x30#8 ++ 0#3 ++ w ++ v) = .ok (.llds w v) := by
  have hlength : (0#3 ++ w ++ v).extractLsb' 16 5 = w := by
    rw [BitVec.extractLsb'_append_eq_of_le (Nat.le_refl 16)]
    exact extractLsb'_append_low _ w
  rw [← encode_llds]
  exact decode_encode_of_read (EncodeForm.llds w v) rfl
    (congrArg₂ Instr.llds hlength (extractLsb'_append_low _ v)) rfl

theorem decode_lldt (v : Wide) : decode (0x3100#16 ++ v) = .ok (.lldt v) := by
  rw [← encode_lldt]
  exact decode_encode_of_read (EncodeForm.lldt v) rfl (congrArg Instr.lldt (extractLsb'_append_low _ v)) rfl

theorem decode_lsetd (d : BitVec 2) : decode (0x32#8 ++ 0#22 ++ d) = .ok (.lsetd d) := by
  rw [← encode_lsetd]
  exact decode_encode_of_read (EncodeForm.lsetd d) rfl (congrArg Instr.lsetd (extractLsb'_append_low _ d)) rfl

theorem decode_lrd (sel : BitVec 2) : decode (0x37#8 ++ 0#22 ++ sel) = .ok (.lrd sel) := by
  rw [← encode_lrd]
  exact decode_encode_of_read (EncodeForm.lrd sel) rfl (congrArg Instr.lrd (extractLsb'_append_low _ sel)) rfl

end Sys2Proof
end

section
/-! The commands of the LFSR engine (spec/43_lfsr.md R171 to R181): the error each failing check gives, and what the
loads, the stepping commands and the read write and answer. -/

namespace Sys2Proof.Machine

/-! ### The checks of LLDS (R171) -/

theorem seedError_of_gt {w : BitVec 5} (h : 16 < w.toNat) (v : Wide) : seedError w v = some .capacityExceeded :=
  if_pos h

theorem seedError_zero (v : Wide) : seedError 0#5 v = some .invalidInput := rfl

theorem seedError_of_hasStray {w : BitVec 5} {v : Wide} (hw : w ≠ 0#5) (hle : w.toNat ≤ 16)
    (hstray : HasStray w.toNat v) : seedError w v = some .invalidInput := by
  rw [seedError, Config.lfsrWmax, if_neg (Nat.not_lt.mpr hle), if_neg hw, if_pos ((strayBits_iff _ _).mpr hstray)]

theorem exec_llds_of_error {w : BitVec 5} {v : Wide} {e : Status} (h : seedError w v = some e) (s : State) :
    exec (.llds w v) s = raise e s := by
  rw [exec, execLlds, h, guarded_some]

theorem exec_llds_of_none {w : BitVec 5} {v : Wide} (h : seedError w v = none) (s : State) :
    exec (.llds w v) s = replyLs (s.loadSeed w v) := by
  rw [exec, execLlds, h, guarded_none]

/-! ### The checks of the stepping commands (R176) -/

theorem directionOf_eq_none_iff : ∀ d : BitVec 2, directionOf d = none ↔ d ≠ 0#2 ∧ d ≠ 1#2 := by decide

theorem steppingError_of_unloaded {l : Lfsr} (h : l.lw = 0#5) (n : Nat) : steppingError l n = some .invalidInput :=
  if_pos h

theorem steppingError_of_hasStray {l : Lfsr} (hw : l.lw ≠ 0#5) (hstray : HasStray l.lw.toNat l.lt) (n : Nat) :
    steppingError l n = some .indexOutOfRange := by
  rw [steppingError, if_neg hw, if_pos ((strayBits_iff _ _).mpr hstray)]

theorem steppingError_of_no_direction {l : Lfsr} {n : Nat} (hw : l.lw ≠ 0#5) (htaps : ¬ HasStray l.lw.toNat l.lt)
    (hn : 1 ≤ n) (hdir : directionOf l.ldir = none) : steppingError l n = some .invalidArgument := by
  rw [steppingError, if_neg hw, if_neg ((strayBits_iff _ _).not.mpr htaps), if_pos ⟨hn, hdir⟩]

/-- The three stepping commands are one: the common checks, then n steps on the data (R177 to R179). -/
theorem exec_of_asksForSteps {i : Instr} {n : Nat} {v : Wide} (h : AsksForSteps i n v) (s : State) :
    exec i s = guarded (steppingError s.lfsr n) s (advance .serial n v s) := by
  obtain ⟨rfl, rfl, rfl⟩ | ⟨m, rfl, rfl, hm, rfl⟩ | ⟨m, rfl, rfl, hm, hdata⟩ := h
  case inl => rfl
  case inr.inl => rw [exec, execLgen_eq, if_pos hm]
  case inr.inr =>
    have hcheck : streamError s.lfsr m.toNat v = steppingError s.lfsr m.toNat :=
      if_neg ((strayBits_iff _ _).not.mpr hdata)
    rw [exec, execLenc_eq, if_pos hm, hcheck]

theorem exec_of_steppingError {i : Instr} {n : Nat} {v : Wide} {s : State} {e : Status} (h : AsksForSteps i n v)
    (he : steppingError s.lfsr n = some e) : exec i s = raise e s := by
  rw [exec_of_asksForSteps h, he, guarded_some]

/-! ### The read (R181) -/

theorem configuration_fields (l : Lfsr) :
    (configuration l).extractLsb' 0 5 = l.lw ∧ (configuration l).extractLsb' 5 3 = 0#3 ∧
      (configuration l).extractLsb' 8 2 = l.ldir ∧ (configuration l).extractLsb' 10 14 = 0#14 := by
  refine ⟨extractLsb'_append_low _ l.lw, ?_, ?_, ?_⟩
  · rw [configuration, BitVec.extractLsb'_append_eq_of_le (Nat.le_refl 5)]
    exact extractLsb'_append_low _ _
  · rw [configuration, BitVec.extractLsb'_append_eq_of_le (by decide), BitVec.extractLsb'_append_eq_of_le (by decide)]
    exact extractLsb'_append_low _ _
  · rw [configuration, BitVec.extractLsb'_append_eq_of_le (by decide), BitVec.extractLsb'_append_eq_of_le (by decide)]
    exact extractLsb'_append_high _ _

theorem lrd_selector_cases : ∀ sel : BitVec 2, sel = 0#2 ∨ sel = 1#2 ∨ sel = 2#2 ∨ sel = 3#2 := by decide

theorem exec_lrd_reset (sel : BitVec 2) : exec (.lrd sel) State.reset = reply 0#24 State.reset := by
  obtain rfl | rfl | rfl | rfl := lrd_selector_cases sel
  · rfl
  · rfl
  · rfl
  · rfl

/-! ### The obligations -/

/-- Settles O44: each case of R171 picks the error of the first failing check, or passes them all. -/
theorem lldsChecksAndLoads : Obligations.LldsChecksAndLoads := by
  intro s w v
  refine ⟨?_, ?_, ?_, ?_, decode_llds w v⟩
  · intro hlong
    exact exec_llds_of_error (seedError_of_gt hlong v) s
  · rintro rfl
    exact exec_llds_of_error (seedError_zero v) s
  · intro hw hle hstray
    exact exec_llds_of_error (seedError_of_hasStray hw hle hstray) s
  · intro hw hle hclean
    exact exec_llds_of_none ((seedError_eq_none w v).mpr ⟨hle, hw, (strayBits_false_iff _ _).mpr hclean⟩) s

/-- Settles O46: the three commands make the same checks; when all pass, the state of the last step is written to LS. -/
theorem steppingChecksInOrder : Obligations.SteppingChecksInOrder := by
  intro s i n v hi
  refine ⟨?_, ?_, ?_, ?_⟩
  · intro hunloaded
    exact exec_of_steppingError hi (steppingError_of_unloaded hunloaded n)
  · intro hw hstray
    exact exec_of_steppingError hi (steppingError_of_hasStray hw hstray n)
  · intro hw htaps hn hright hleft
    exact exec_of_steppingError hi
      (steppingError_of_no_direction hw htaps hn ((directionOf_eq_none_iff _).mpr ⟨hright, hleft⟩))
  · intro hw htaps hdir
    have hsteps : n = 0 ∨ directionOf s.lfsr.ldir ≠ none := by
      rw [Ne, directionOf_eq_none_iff]
      tauto
    have hpass : steppingError s.lfsr n = none :=
      (steppingError_eq_none _ n).mpr ⟨hw, (strayBits_false_iff _ _).mpr htaps, hsteps⟩
    rw [exec_of_asksForSteps hi, hpass, guarded_none]
    exact ⟨_, _, rfl⟩

/-- Settles O45: none of the three is guarded, and each answers LS of the state it has written. -/
theorem lfsrLoadsStoreTheirOperand : Obligations.LfsrLoadsStoreTheirOperand := fun _ v d =>
  ⟨⟨rfl, decode_lldt v⟩, ⟨rfl, decode_lsetd d⟩, rfl, rfl⟩

/-- Settles O53: each selector reads its own register, the last the fields of the configuration. -/
theorem lrdAnswersTheSelectedRegister : Obligations.LrdAnswersTheSelectedRegister := by
  refine ⟨exec_lrd_reset, fun s => ⟨rfl, rfl, rfl, ?_, decode_lrd⟩⟩
  obtain ⟨hlw, hzero, hldir, hhigh⟩ := configuration_fields s.lfsr
  exact ⟨configuration s.lfsr, hlw, hzero, hldir, hhigh, rfl⟩

end Sys2Proof.Machine
end

section
/-! Words that are no command, and NOP (spec/44_system.md R201, R203). -/

open Sys2Proof.Machine

namespace Sys2Proof

/-! ### Words that do not decode (R74) -/

/-- A word no line of the map accepts is rejected by one of the steps of R74. -/
theorem decode_error_of_not_accepts {w : Word} (h : ∀ l ∈ opcodeMap, ¬ l.Accepts w) : ∃ e, decode w = .error e := by
  cases hd : decode w with
  | error e => exact ⟨e, rfl⟩
  | ok i =>
    obtain ⟨l, hl, -, haccepts⟩ := (decodeAcceptsExactlyTheOpcodeMap w i.mnemonic).mp ⟨i, hd, rfl⟩
    exact absurd haccepts (h l hl)

theorem decode_of_rowOf {w : Word} {r : OpcodeRow} (h : rowOf (opcodeOf w) = some r) :
    decode w = readRow r (areaOf w) := by
  simp only [decode, h]

/-- A 1 in a must-be-zero bit rejects the word (R79). -/
theorem readRow_of_mbz_ne {r : OpcodeRow} {a : Area} (h : r.format.mbz &&& a ≠ 0#24) :
    readRow r a = .error .mbzViolation := if_neg h

/-! ### The obligations -/

/-- Settles O2: the word does not decode, so the step takes it and raises IllegalCommand. -/
theorem illegalWordRaisesIllegalCommand : Obligations.IllegalWordRaisesIllegalCommand := by
  intro s w rest hpending hmap
  obtain ⟨e, hd⟩ := decode_error_of_not_accepts hmap
  exact ⟨runNext_of_illegal exec hpending hd, by decide⟩

/-- Settles O22: every bit of NOP's operand area must be zero, so the area is the part the format tests. -/
theorem nopDoesNothing : Obligations.NopDoesNothing := by
  refine ⟨fun _ => rfl, rfl, fun a ha => ?_⟩
  have hrow : rowOf (opcodeOf (0x00#8 ++ a)) = some ⟨0x00#8, .z, fun _ => .nop⟩ := by
    rw [opcodeOf_append]
    rfl
  have hmbz : Format.mbz .z &&& a = a := BitVec.allOnes_and
  rw [decode_of_rowOf hrow, areaOf_append]
  exact readRow_of_mbz_ne (hmbz.symm ▸ ha)

end Sys2Proof
end

section
/-! Responses and failures (spec/60_exceptions.md): every command word gets one response, and a response other than Ok
comes with untouched registers (R15, R215). -/

namespace Sys2Proof.Machine

open Host (Outcome)

/-! ### Every command answers once -/

theorem execIllegal_answersOnce (s : State) : AnswersOnce s (execIllegal s) := raise_answersOnce s _

/-- A command whose operands may make its word illegal (R80) answers once if it does with legal ones. -/
theorem ite_execIllegal_answersOnce {p : Prop} [Decidable p] {s : State} {k : Outcome State Fault Refusal}
    (h : AnswersOnce s k) : AnswersOnce s (if p then k else execIllegal s) := by
  split
  case isTrue => exact h
  case isFalse => exact execIllegal_answersOnce s

theorem execSrd_answersOnce (sel : BitVec 2) (s : State) : AnswersOnce s (execSrd sel s) := by
  unfold execSrd
  split
  case h_1 | h_2 | h_3 => exact reply_answersOnce _ rfl rfl
  case h_4 => exact execIllegal_answersOnce s

theorem execFrd_answersOnce (sel : BitVec 2) (idx : BitVec 4) (s : State) : AnswersOnce s (execFrd sel idx s) := by
  unfold execFrd
  split
  case h_1 | h_2 => exact ite_execIllegal_answersOnce (reply_answersOnce _ rfl rfl)
  case h_3 => exact guarded_answersOnce _ (reply_answersOnce _ rfl rfl)
  case h_4 => exact execIllegal_answersOnce s

theorem execLrd_answersOnce (sel : BitVec 2) (s : State) : AnswersOnce s (execLrd sel s) := by
  unfold execLrd
  split
  case h_1 | h_2 | h_3 | h_4 => exact reply_answersOnce _ rfl rfl

/-- A command makes its checks, if it has any, before it writes; then it completes without touching the port. -/
theorem exec_answersOnce (i : Instr) (s : State) : AnswersOnce s (exec i s) := by
  cases i with
  | nop | sldb _ | sldk _ | sldrk _ | skder _ | sxor | ssub | sisub | sperm | siperm | srenc | srdec | senc | sdec
  | fldb _ | fkclr | ff _ _ | frnd _ | firnd _ | fenc | fdec | lldt _ | lsetd _ | lrst =>
    exact reply_answersOnce _ rfl rfl
  | fkpush _ | fencn _ | fdecn _ | llds _ _ | lstep => exact guarded_answersOnce _ (reply_answersOnce _ rfl rfl)
  | lgen _ | lenc _ _ => exact ite_execIllegal_answersOnce (guarded_answersOnce _ (reply_answersOnce _ rfl rfl))
  | srd sel => exact execSrd_answersOnce sel s
  | frd sel idx => exact execFrd_answersOnce sel idx s
  | lrd sel => exact execLrd_answersOnce sel s

/-- The step of a command word, legal or not, answers once from the state with the word taken. -/
theorem step_answersOnce {s : State} {w : Word} {rest : List HostInput} (h : s.pending = .command w :: rest) :
    AnswersOnce { s with pending := rest } (step s) := by
  cases hd : decode w with
  | ok i =>
    rw [step, runNext_of_command exec h hd]
    exact exec_answersOnce i _
  | error e =>
    rw [step, runNext_of_illegal exec h hd]
    exact execIllegal_answersOnce _

/-! ### The obligations -/

/-- Settles O14: the response given is the only one the step appends, and AnswersOnce fixes the state beside an error. -/
theorem failureIsAtomic : Obligations.FailureIsAtomic := by
  intro s t w rest r hpending hstep hresponses hfail
  obtain ⟨u, q, hnext, -, hq, hframe⟩ := step_answersOnce hpending
  obtain rfl : t = u := Outcome.next.inj (hstep.symm.trans hnext)
  obtain rfl : r = q := List.singleton_inj.mp (List.append_cancel_left (hresponses.symm.trans hq))
  exact hframe hfail

end Sys2Proof.Machine
end

section
/-! Encoding and decoding undo each other (R70, R71, R74, R75): what each row reads back from an operand area, and the
area a command read from a row is written as again. -/

open Sys2Proof.Laws

namespace Sys2Proof

/-! ### From a command to its word and back -/

theorem encodeForm (i : Instr) : EncodeForm.Statement i := by
  cases i with
  | nop => exact EncodeForm.nop
  | sldb v => exact EncodeForm.sldb v
  | sldk v => exact EncodeForm.sldk v
  | sldrk v => exact EncodeForm.sldrk v
  | skder h => exact EncodeForm.skder h
  | sxor => exact EncodeForm.sxor
  | ssub => exact EncodeForm.ssub
  | sisub => exact EncodeForm.sisub
  | sperm => exact EncodeForm.sperm
  | siperm => exact EncodeForm.siperm
  | srenc => exact EncodeForm.srenc
  | srdec => exact EncodeForm.srdec
  | senc => exact EncodeForm.senc
  | sdec => exact EncodeForm.sdec
  | srd sel => exact EncodeForm.srd sel
  | fldb v => exact EncodeForm.fldb v
  | fkclr => exact EncodeForm.fkclr
  | fkpush v => exact EncodeForm.fkpush v
  | ff a b => exact EncodeForm.ff a b
  | frnd k => exact EncodeForm.frnd k
  | firnd k => exact EncodeForm.firnd k
  | fenc => exact EncodeForm.fenc
  | fencn n => exact EncodeForm.fencn n
  | fdec => exact EncodeForm.fdec
  | fdecn n => exact EncodeForm.fdecn n
  | frd sel idx => exact EncodeForm.frd sel idx
  | llds w v => exact EncodeForm.llds w v
  | lldt v => exact EncodeForm.lldt v
  | lsetd d => exact EncodeForm.lsetd d
  | lrst => exact EncodeForm.lrst
  | lstep => exact EncodeForm.lstep
  | lgen n => exact EncodeForm.lgen n
  | lenc n v => exact EncodeForm.lenc n v
  | lrd sel => exact EncodeForm.lrd sel

/-- A middle field of an area, with a field or must-be-zero bits on both sides. -/
theorem extractLsb'_append_middle {k m n : Nat} (a : BitVec k) (b : BitVec m) (c : BitVec n) :
    (a ++ b ++ c).extractLsb' n m = b := by
  rw [BitVec.extractLsb'_append_eq_of_le (Nat.le_refl n), Nat.sub_self]
  exact extractLsb'_append_low a b

/-- The row of a command's opcode reads the command's fields from the places they were written to (R71). -/
def ReadBack (i : Instr) : Prop := ∃ r, rowOf (opcode i) = some r ∧ r.read (operandArea i) = i

theorem readBack (i : Instr) : ReadBack i := by
  cases i with
  | nop | sxor | ssub | sisub | sperm | siperm | srenc | srdec | senc | sdec | fkclr | fenc | fdec | lrst | lstep =>
    exact ⟨_, rfl, rfl⟩
  | sldb v => exact ⟨_, rfl, congrArg Instr.sldb (extractLsb'_append_low _ v)⟩
  | sldk v => exact ⟨_, rfl, congrArg Instr.sldk (extractLsb'_append_low _ v)⟩
  | sldrk v => exact ⟨_, rfl, congrArg Instr.sldrk (extractLsb'_append_low _ v)⟩
  | skder h => exact ⟨_, rfl, congrArg Instr.skder (extractLsb'_append_low _ h)⟩
  | srd sel => exact ⟨_, rfl, congrArg Instr.srd (extractLsb'_append_low _ sel)⟩
  | fldb v => exact ⟨_, rfl, congrArg Instr.fldb (extractLsb'_append_low _ v)⟩
  | fkpush v => exact ⟨_, rfl, congrArg Instr.fkpush (extractLsb'_append_low _ v)⟩
  | ff a b => exact ⟨_, rfl, congrArg₂ Instr.ff (extractLsb'_append_middle _ a b) (extractLsb'_append_low _ b)⟩
  | frnd k => exact ⟨_, rfl, congrArg Instr.frnd (extractLsb'_append_low _ k)⟩
  | firnd k => exact ⟨_, rfl, congrArg Instr.firnd (extractLsb'_append_low _ k)⟩
  | fencn n => exact ⟨_, rfl, congrArg Instr.fencn (extractLsb'_append_low _ n)⟩
  | fdecn n => exact ⟨_, rfl, congrArg Instr.fdecn (extractLsb'_append_low _ n)⟩
  | frd sel idx =>
    have hsel : (0#14 ++ sel ++ 0#4 ++ idx).extractLsb' 8 2 = sel := by
      rw [BitVec.extractLsb'_append_eq_of_le (by decide)]
      exact extractLsb'_append_middle _ sel 0#4
    exact ⟨_, rfl, congrArg₂ Instr.frd hsel (extractLsb'_append_low _ idx)⟩
  | llds w v =>
    exact ⟨_, rfl, congrArg₂ Instr.llds (extractLsb'_append_middle _ w v) (extractLsb'_append_low _ v)⟩
  | lldt v => exact ⟨_, rfl, congrArg Instr.lldt (extractLsb'_append_low _ v)⟩
  | lsetd d => exact ⟨_, rfl, congrArg Instr.lsetd (extractLsb'_append_low _ d)⟩
  | lgen n => exact ⟨_, rfl, congrArg Instr.lgen (extractLsb'_append_middle _ n 0#16)⟩
  | lenc n v =>
    exact ⟨_, rfl, congrArg₂ Instr.lenc (extractLsb'_append_middle _ n v) (extractLsb'_append_low _ v)⟩
  | lrd sel => exact ⟨_, rfl, congrArg Instr.lrd (extractLsb'_append_low _ sel)⟩

/-- Settles O4: the row of the command's opcode finds the must-be-zero bits 0 and reads every field back. -/
theorem decodeOfEncodeIsTheCommand : Obligations.DecodeOfEncodeIsTheCommand := by
  intro i hwf
  obtain ⟨r, hrow, hread⟩ := readBack i
  exact decode_encode_of_read (encodeForm i) hrow hread hwf

/-! ### From a word to its command and back -/

/-- The fields of a format, each written back at its place, are the area with the must-be-zero bits cleared (R71). -/
theorem fields_eq_and_not_mbz (a : Area) :
    0#24 = a &&& ~~~Format.z.mbz ∧
    0#16 ++ a.extractLsb' 0 8 = a &&& ~~~Format.b.mbz ∧
    0#8 ++ a.extractLsb' 8 8 ++ a.extractLsb' 0 8 = a &&& ~~~Format.bb.mbz ∧
    0#8 ++ a.extractLsb' 0 16 = a &&& ~~~Format.h.mbz ∧
    0#23 ++ a.extractLsb' 0 1 = a &&& ~~~Format.s1.mbz ∧
    0#22 ++ a.extractLsb' 0 2 = a &&& ~~~Format.s2.mbz ∧
    0#19 ++ a.extractLsb' 0 5 = a &&& ~~~Format.n.mbz ∧
    0#3 ++ a.extractLsb' 16 5 ++ 0#16 = a &&& ~~~Format.c.mbz ∧
    0#3 ++ a.extractLsb' 16 5 ++ a.extractLsb' 0 16 = a &&& ~~~Format.ch.mbz ∧
    0#14 ++ a.extractLsb' 8 2 ++ 0#4 ++ a.extractLsb' 0 4 = a &&& ~~~Format.x.mbz := by
  refine ⟨?_, ?_, ?_, ?_, ?_, ?_, ?_, ?_, ?_, ?_⟩
  all_goals
    apply BitVec.eq_of_getLsbD_eq
    intro k hk
    simp only [Format.mbz, BitVec.getLsbD_append, BitVec.getLsbD_and, BitVec.getLsbD_not, BitVec.getLsbD_extractLsb']
    interval_cases k <;> simp

/-- The command a row reads has the row's opcode, and its fields in an area whose must-be-zero bits are 0. -/
theorem opcode_and_operandArea_read (a : Area) : ∀ r ∈ opcodeRows,
    opcode (r.read a) = r.op ∧ operandArea (r.read a) = a &&& ~~~r.format.mbz := by
  obtain ⟨hz, hb, hbb, hh, hs1, hs2, hn, hc, hch, hx⟩ := fields_eq_and_not_mbz a
  simp only [opcodeRows, systemRows, spnRows, feistelRows, lfsrRows, List.forall_mem_append, List.forall_mem_cons,
    opcode, operandArea, ← hz, ← hb, ← hbb, ← hh, ← hs1, ← hs2, ← hn, ← hc, ← hch, ← hx]
  simp

theorem and_not_eq_self_of_and_eq_zero {m a : Area} (h : m &&& a = 0#24) : a &&& ~~~m = a := by
  apply BitVec.eq_of_getLsbD_eq
  intro k hk
  have hbit : (m.getLsbD k && a.getLsbD k) = false := by simpa using congrArg (BitVec.getLsbD · k) h
  cases hm : m.getLsbD k <;> simp_all

/-- Settles O5: the area had no must-be-zero bit set, so writing the fields back gives the area again. -/
theorem encodeOfDecodeIsTheWord : Obligations.EncodeOfDecodeIsTheWord := by
  intro w i hdec
  obtain ⟨r, hr, hop, hread⟩ := (decode_eq_ok_iff w i).mp hdec
  obtain ⟨hmbz, hwf, rfl⟩ := (readRow_eq_ok_iff r _ i).mp hread
  obtain ⟨hopcode, harea⟩ := opcode_and_operandArea_read (areaOf w) r hr
  refine ⟨?_, hwf⟩
  rw [encode, hopcode, hop, harea, and_not_eq_self_of_and_eq_zero hmbz, opcodeOf_append_areaOf]

/-- Settles O6: each word is looked up and read field by field. -/
theorem writtenOutWordsDecode : Obligations.WrittenOutWordsDecode := ⟨rfl, rfl, rfl, rfl, rfl, rfl⟩

end Sys2Proof
end

section
/-! What a step and a command can do, said once: the cases of a step (R57), the register writes a command may make with
what its checks ensured, and the responses it may give (R24 to R34, R82, R220). The invariants and the frame of every
command follow. -/

namespace Sys2Proof.Machine

open Host (Outcome)

/-! ### The cases of a step -/

/-- Two runs of the next host input are related when they are for each kind of input, the same one being pending. -/
theorem runNext_related {R : Outcome State Fault Refusal → Outcome State Fault Refusal → Prop}
    {run run' : Instr → State → Outcome State Fault Refusal} {s s' : State} (hpending : s.pending = s'.pending)
    (hidle : R (idle s) (idle s'))
    (hreset : ∀ rest, R (resetEvent { s with pending := rest }) (resetEvent { s' with pending := rest }))
    (hcommand : ∀ i rest, R (run i { s with pending := rest }) (run' i { s' with pending := rest }))
    (hillegal : ∀ rest, R (execIllegal { s with pending := rest }) (execIllegal { s' with pending := rest })) :
    R (runNext run s) (runNext run' s') := by
  cases hp : s.pending with
  | nil => rwa [runNext_of_nil run hp, runNext_of_nil run' (hpending ▸ hp)]
  | cons x rest =>
    cases x with
    | reset =>
      rw [runNext_of_reset run hp, runNext_of_reset run' (hpending ▸ hp)]
      exact hreset rest
    | command w =>
      cases hd : decode w with
      | ok i =>
        rw [runNext_of_command run hp hd, runNext_of_command run' (hpending ▸ hp) hd]
        exact hcommand i rest
      | error e =>
        rw [runNext_of_illegal run hp hd, runNext_of_illegal run' (hpending ▸ hp) hd]
        exact hillegal rest

/-- What holds of waiting, of the reset event, of every command and of an illegal word holds of the step. -/
theorem step_property {P : Outcome State Fault Refusal → Prop} {s : State} (hidle : P (idle s))
    (hreset : ∀ rest, P (resetEvent { s with pending := rest }))
    (hcommand : ∀ i rest, P (exec i { s with pending := rest }))
    (hillegal : ∀ rest, P (execIllegal { s with pending := rest })) : P (step s) :=
  runNext_related (R := fun o _ => P o) (run' := exec) (s' := s) rfl hidle hreset hcommand hillegal

/-! ### What a command may write -/

/-- The writes a command may make: none, or one register operation, with the commands that make it (the "Written by"
sentences of R24 to R34) and what their checks ensured. -/
inductive Update (s : State) : Instr → State → Prop
  | keep (i : Instr) : Update s i s
  | setSb {i : Instr} (v : Byte)
      (hi : i.mnemonic ∈ ["SLDB", "SXOR", "SSUB", "SISUB", "SPERM", "SIPERM", "SRENC", "SRDEC", "SENC", "SDEC"]) :
      Update s i (s.setSb v)
  | setSk (v : Byte) : Update s (.sldk v) (s.setSk v)
  | setSrk {i : Instr} (v : Byte) (hi : i.mnemonic ∈ ["SLDRK", "SKDER"]) : Update s i (s.setSrk v)
  | setBlock {i : Instr} (b : Byte × Byte)
      (hi : i.mnemonic ∈ ["FLDB", "FRND", "FIRND", "FENC", "FENCN", "FDEC", "FDECN"]) : Update s i (s.setBlock b)
  | clearKeys : Update s .fkclr s.clearKeys
  | pushKey (v : Byte) (hroom : s.feistel.fkn.toNat ≠ 16) : Update s (.fkpush v) (s.pushKey v)
  | loadSeed {w : BitVec 5} {v : Wide} (hseed : seedError w v = none) : Update s (.llds w v) (s.loadSeed w v)
  | setTaps (v : Wide) : Update s (.lldt v) (s.setTaps v)
  | setDirection (d : BitVec 2) : Update s (.lsetd d) (s.setDirection d)
  | restart : Update s .lrst (s.setLs s.lfsr.lseed)
  | advance {i : Instr} (n : Nat) (hi : i.mnemonic ∈ ["LSTEP", "LGEN", "LENC"])
      (hsteps : steppingError s.lfsr n = none) : Update s i (s.setLs (lfsrAdvanceBy .serial s.lfsr n).2)

/-- The command makes one of its writes and answers with a formed response, whose status is Ok or one of its row (R220);
only an operand value the encoding reserves makes it answer otherwise (R80). -/
def Does (i : Instr) (s : State) (o : Outcome State Fault Refusal) : Prop :=
  ∃ u r, o = .next (u.respond r) ∧ Update s i u ∧ r.Formed ∧
    (r.status = .ok ∨ r.status ∈ mayFailWith i ∨ i.wellFormed = false)

section
variable {i : Instr} {s u : State}

theorem does_reply {d : Area} (hu : Update s i u) (hd : d.extractLsb' 16 8 = 0#8) : Does i s (reply d u) :=
  ⟨u, _, rfl, hu, ⟨fun h => absurd rfl h, hd⟩, .inl rfl⟩

theorem failure_formed (e : Status) : Rsp.Formed ⟨e, 0#24⟩ :=
  ⟨fun _ => rfl, (by decide : (0#24).extractLsb' 16 8 = 0#8)⟩

theorem does_raise {e : Status} (he : e ∈ mayFailWith i ∨ i.wellFormed = false) : Does i s (raise e s) :=
  ⟨s, _, rfl, .keep i, failure_formed e, .inr he⟩

theorem does_guarded {e : Option Status} {k : Outcome State Fault Refusal}
    (he : ∀ x, e = some x → x ∈ mayFailWith i) (hk : e = none → Does i s k) : Does i s (guarded e s k) := by
  cases e with
  | none => exact hk rfl
  | some x => exact does_raise (.inl (he x rfl))

/-- A value of at most 16 bits leaves bits 23..16 of the data 0 (R82). -/
theorem extractLsb'_zext24 {n : Nat} (hn : n ≤ 16) (v : BitVec n) : (zext24 v).extractLsb' 16 8 = 0#8 := by
  apply BitVec.eq_of_getLsbD_eq
  intro k hk
  simp only [zext24, BitVec.getLsbD_extractLsb', BitVec.getLsbD_setWidth]
  simp [BitVec.getLsbD_of_ge v (16 + k) (by omega)]

theorem does_replySb (hu : Update s i u) : Does i s (replySb u) := does_reply hu (extractLsb'_zext24 (by decide) _)

theorem does_replyBlock (hu : Update s i u) : Does i s (replyBlock u) :=
  does_reply hu (extractLsb'_zext24 (by decide) _)

theorem does_replyLs (hu : Update s i u) : Does i s (replyLs u) := does_reply hu (extractLsb'_zext24 (by decide) _)

end

/-! ### Which errors the checks find (R171, R176, R179, R220) -/

theorem mem_of_seedError {w : BitVec 5} {v : Wide} {e : Status} (h : seedError w v = some e) :
    e ∈ [Status.invalidInput, .capacityExceeded] := by
  unfold seedError at h
  split_ifs at h <;> cases h <;> decide

theorem mem_of_steppingError {l : Lfsr} {n : Nat} {e : Status} (h : steppingError l n = some e) :
    e ∈ [Status.invalidInput, .invalidArgument, .indexOutOfRange] := by
  unfold steppingError at h
  split_ifs at h <;> cases h <;> decide

theorem mem_of_streamError {l : Lfsr} {n : Nat} {v : Wide} {e : Status} (h : streamError l n v = some e) :
    e ∈ [Status.invalidInput, .invalidArgument, .indexOutOfRange] := by
  unfold streamError at h
  split_ifs at h
  case pos =>
    cases h
    decide
  case neg => exact mem_of_steppingError h

theorem mem_of_roundCountError {f : Feistel} {n : Nat} {e : Status} (h : roundCountError f n = some e) :
    e ∈ [Status.invalidArgument] := by
  unfold roundCountError at h
  split_ifs at h
  cases h
  decide

/-! ### Every command -/

theorem execSrd_does (sel : BitVec 2) (s : State) : Does (.srd sel) s (execSrd sel s) := by
  unfold execSrd
  split
  case h_1 | h_2 | h_3 => exact does_reply (.keep _) (extractLsb'_zext24 (by decide) _)
  case h_4 => exact does_raise (.inr rfl)

theorem execFrd_does (sel : BitVec 2) (idx : BitVec 4) (s : State) : Does (.frd sel idx) s (execFrd sel idx s) := by
  unfold execFrd
  split
  case h_1 | h_2 =>
    split
    case isTrue => exact does_reply (.keep _) (extractLsb'_zext24 (by decide) _)
    case isFalse hidx => exact does_raise (.inr (by simp [Instr.wellFormed, hidx]))
  case h_3 =>
    refine does_guarded ?_ fun _ => does_reply (.keep _) (extractLsb'_zext24 (by decide) _)
    intro e he
    split_ifs at he
    cases he
    exact List.mem_singleton_self _
  case h_4 => exact does_raise (.inr rfl)

theorem configuration_formed (l : Lfsr) : (configuration l).extractLsb' 16 8 = 0#8 := by
  rw [configuration, BitVec.extractLsb'_append_eq_of_le (by decide), BitVec.extractLsb'_append_eq_of_le (by decide),
    BitVec.extractLsb'_append_eq_of_le (by decide)]
  rfl

theorem execLrd_does (sel : BitVec 2) (s : State) : Does (.lrd sel) s (execLrd sel s) := by
  unfold execLrd
  split
  case h_1 | h_2 | h_3 => exact does_reply (.keep _) (extractLsb'_zext24 (by decide) _)
  case h_4 => exact does_reply (.keep _) (configuration_formed _)

theorem execFkpush_does (v : Byte) (s : State) : Does (.fkpush v) s (execFkpush v s) := by
  unfold execFkpush Config.fkDepth
  split
  case isTrue => exact does_raise (.inl (List.mem_singleton_self _))
  case isFalse hroom => exact does_replyBlock (.pushKey v hroom)

theorem advance_does {i : Instr} {s : State} {n : Nat} (v : Wide) (hi : i.mnemonic ∈ ["LSTEP", "LGEN", "LENC"])
    (hsteps : steppingError s.lfsr n = none) : Does i s (advance .serial n v s) :=
  does_reply (.advance n hi hsteps) (extractLsb'_zext24 (by decide) _)

theorem execLgen_does (n : BitVec 5) (s : State) : Does (.lgen n) s (execLgen n s) := by
  rw [execLgen_eq]
  split
  case isTrue =>
    exact does_guarded (fun _ => mem_of_steppingError) (advance_does _ (by simp [Instr.mnemonic]))
  case isFalse hn => exact does_raise (.inr (decide_eq_false hn))

theorem execLenc_does (n : BitVec 5) (v : Wide) (s : State) : Does (.lenc n v) s (execLenc n v s) := by
  rw [execLenc_eq]
  split
  case isTrue =>
    refine does_guarded (fun _ => mem_of_streamError) fun hnone => advance_does v (by simp [Instr.mnemonic]) ?_
    exact ((streamError_eq_none _ _ _).mp hnone).2
  case isFalse hn => exact does_raise (.inr (decide_eq_false hn))

theorem exec_does (i : Instr) (s : State) : Does i s (exec i s) := by
  cases i with
  | nop => exact does_reply (.keep _) rfl
  | sldb _ | sxor | ssub | sisub | sperm | siperm | srenc | srdec | senc | sdec =>
    exact does_replySb (.setSb _ (by simp [Instr.mnemonic]))
  | sldk v => exact does_replySb (.setSk v)
  | sldrk _ | skder _ => exact does_replySb (.setSrk _ (by simp [Instr.mnemonic]))
  | srd sel => exact execSrd_does sel s
  | fldb _ | frnd _ | firnd _ | fenc | fdec => exact does_replyBlock (.setBlock _ (by simp [Instr.mnemonic]))
  | fkclr => exact does_replyBlock .clearKeys
  | fkpush v => exact execFkpush_does v s
  | ff a b => exact does_reply (.keep _) (extractLsb'_zext24 (by decide) _)
  | fencn _ | fdecn _ =>
    exact does_guarded (fun _ => mem_of_roundCountError)
      fun _ => does_replyBlock (.setBlock _ (by simp [Instr.mnemonic]))
  | frd sel idx => exact execFrd_does sel idx s
  | llds w v => exact does_guarded (fun _ => mem_of_seedError) fun hnone => does_replyLs (.loadSeed hnone)
  | lldt v => exact does_replyLs (.setTaps v)
  | lsetd d => exact does_replyLs (.setDirection d)
  | lrst => exact does_replyLs .restart
  | lstep => exact does_guarded (fun _ => mem_of_steppingError) (advance_does _ (by simp [Instr.mnemonic]))
  | lgen n => exact execLgen_does n s
  | lenc n v => exact execLenc_does n v s
  | lrd sel => exact execLrd_does sel s

/-! ### What every write keeps -/

theorem Update.responses {i : Instr} {s u : State} (h : Update s i u) : u.responses = s.responses := by
  cases h <;> rfl

/-- A command that ends in t has written u and answered r. -/
theorem exec_next {i : Instr} {s t : State} (h : exec i s = .next t) :
    ∃ u r, t = u.respond r ∧ Update s i u ∧ r.Formed ∧
      (r.status = .ok ∨ r.status ∈ mayFailWith i ∨ i.wellFormed = false) := by
  obtain ⟨u, r, hnext, hdoes⟩ := exec_does i s
  exact ⟨u, r, Outcome.next.inj (h.symm.trans hnext), hdoes⟩

theorem lfsrRun_zero_above {w : Nat} (hw1 : 1 ≤ w) (hw : w ≤ 16) (lt : Wide) (d : Direction) (n : Nat) {ls : Wide}
    (hz : ∀ i, w ≤ i → ls.getMsbD i = false) : ∀ i, w ≤ i → (lfsrRun w lt d n ls).2.getMsbD i = false := by
  induction n generalizing ls with
  | zero => exact hz
  | succ n ih => exact ih (lfsrStep_zero_above hw1 hw lt ls d hz)

theorem lfsrAdvanceBy_zero_above {l : Lfsr} (hw1 : 1 ≤ l.lw.toNat) (hw : l.lw.toNat ≤ 16) (n : Nat)
    (hz : ∀ i, l.lw.toNat ≤ i → l.ls.getMsbD i = false) :
    ∀ i, l.lw.toNat ≤ i → (lfsrAdvanceBy .serial l n).2.getMsbD i = false := by
  cases hd : directionOf l.ldir with
  | none => rwa [lfsrAdvanceBy_of_no_direction hd]
  | some d =>
    rw [lfsrAdvanceBy_serial hd]
    exact lfsrRun_zero_above hw1 hw l.lt d n hz

theorem one_le_lw {l : Lfsr} (h : l.lw ≠ 0#5) : 1 ≤ l.lw.toNat := by
  have : l.lw.toNat ≠ 0 := fun h0 => h (BitVec.eq_of_toNat_eq h0)
  omega

/-- Only FKPUSH raises the count, which was below 16; LSEED and LS are masked by the checks of LLDS and by the step. -/
theorem Update.legal {i : Instr} {s u : State} (h : Update s i u) (hs : s.Legal) : u.Legal := by
  obtain ⟨hfkn, hlw, hz⟩ := hs
  cases h with
  | keep | setSb | setSk | setSrk | setBlock | setTaps | setDirection => exact ⟨hfkn, hlw, hz⟩
  | clearKeys => exact ⟨Nat.zero_le _, hlw, hz⟩
  | pushKey v hroom =>
    refine ⟨?_, hlw, hz⟩
    rw [toNat_fkn_pushKey v (by omega)]
    omega
  | loadSeed hseed =>
    obtain ⟨hw, -, hv⟩ := (seedError_eq_none _ _).mp hseed
    exact legal_of_checks hfkn hw hv hv
  | restart => exact ⟨hfkn, hlw, fun k hk => ⟨(hz k hk).1, (hz k hk).1⟩⟩
  | advance n _ hsteps =>
    have hw1 := one_le_lw ((steppingError_eq_none _ _).mp hsteps).1
    have hls := lfsrAdvanceBy_zero_above hw1 hlw n fun k hk => (hz k hk).2
    exact ⟨hfkn, hlw, fun k hk => ⟨(hz k hk).1, hls k hk⟩⟩

theorem reset_legal (p : List HostInput) (rs : List Rsp) :
    State.Legal { State.reset with pending := p, responses := rs } :=
  legal_of_checks (by decide : 0 ≤ 16) (by decide : 0 ≤ 16) (by decide : strayBits 0 0#16 = false)
    (by decide : strayBits 0 0#16 = false)

/-! ### The obligations -/

/-- Settles O12: each write keeps the invariant, an error writes nothing, and the reset values meet it. -/
theorem stepKeepsRegistersLegal : Obligations.StepKeepsRegistersLegal := by
  intro s t hs
  refine step_property (P := fun o => o = .next t → t.Legal) ?_ ?_ ?_ ?_
  · rintro ⟨⟩
    exact hs
  · rintro rest ⟨⟩
    exact reset_legal rest s.responses
  · intro i rest h
    obtain ⟨u, r, rfl, hu, -⟩ := exec_next h
    exact hu.legal hs
  · rintro rest ⟨⟩
    exact hs

/-- Settles O13: a command and an illegal word append one formed response, the others append none. -/
theorem stepKeepsResponsesFormed : Obligations.StepKeepsResponsesFormed := by
  intro s t hs
  refine step_property (P := fun o => o = .next t → ∀ r ∈ t.responses, r.Formed) ?_ ?_ ?_ ?_
  · rintro ⟨⟩
    exact hs
  · rintro rest ⟨⟩
    exact hs
  · intro i rest h
    obtain ⟨u, r, rfl, hu, hr, -⟩ := exec_next h
    rw [State.respond_responses, hu.responses, List.forall_mem_append, List.forall_mem_singleton]
    exact ⟨hs, hr⟩
  · rintro rest ⟨⟩
    rw [State.respond_responses, List.forall_mem_append, List.forall_mem_singleton]
    exact ⟨hs, failure_formed _⟩

/-- Settles O10: every command answers once, and waiting, the reset event and an illegal word have a next state. -/
theorem stepNeverStops : Obligations.StepNeverStops := by
  intro s
  refine step_property (P := fun o => ∃ t, o = .next t) ⟨_, rfl⟩ (fun _ => ⟨_, rfl⟩) ?_ (fun _ => ⟨_, rfl⟩)
  intro i rest
  obtain ⟨t, _, hnext, -⟩ := exec_answersOnce i { s with pending := rest }
  exact ⟨t, hnext⟩

/-- Settles O15: the response is the one the command appends, and its operands are not reserved. -/
theorem commandsReturnOnlyTheirStatuses : Obligations.CommandsReturnOnlyTheirStatuses := by
  intro i s t r hwf h hresponses
  obtain ⟨u, q, rfl, hu, -, hstatus⟩ := exec_next h
  rw [State.respond_responses, hu.responses] at hresponses
  obtain rfl : q = r := List.singleton_inj.mp (List.append_cancel_left hresponses)
  simpa [hwf] using hstatus

/-- Settles O16: a register that differs was the target of the command's one write. -/
theorem registersChangeOnlyByTheirCommands : Obligations.RegistersChangeOnlyByTheirCommands := by
  intro i s t h
  obtain ⟨u, r, rfl, hu, -⟩ := exec_next h
  refine ⟨?sb, ?sk, ?srk, ?block, ?fk, ?fkn, ?lw, ?lseed, ?ldir, ?lt, ?ls⟩
  case sb =>
    intro hne
    cases hu with
    | setSb _ hi => exact hi
    | _ => exact absurd rfl hne
  case sk =>
    intro hne
    cases hu with
    | setSk => rfl
    | _ => exact absurd rfl hne
  case srk =>
    intro hne
    cases hu with
    | setSrk _ hi => exact hi
    | _ => exact absurd rfl hne
  case block =>
    intro hne
    cases hu with
    | setBlock _ hi => exact hi
    | _ => exact absurd hne (not_or_intro (not_not_intro rfl) (not_not_intro rfl))
  case fk =>
    intro hne
    cases hu with
    | pushKey => rfl
    | _ => exact absurd rfl hne
  case fkn =>
    intro hne
    cases hu with
    | clearKeys | pushKey => simp [Instr.mnemonic]
    | _ => exact absurd rfl hne
  case lw | lseed =>
    intro hne
    cases hu with
    | loadSeed => rfl
    | _ => exact absurd rfl hne
  case ldir =>
    intro hne
    cases hu with
    | setDirection => rfl
    | _ => exact absurd rfl hne
  case lt =>
    intro hne
    cases hu with
    | setTaps => rfl
    | _ => exact absurd rfl hne
  case ls =>
    intro hne
    cases hu with
    | loadSeed | restart => simp [Instr.mnemonic]
    | advance _ hi => exact List.mem_cons_of_mem _ (List.mem_cons_of_mem _ hi)
    | _ => exact absurd rfl hne

/-- A push puts its operand after the keys there are (R28, R149). -/
theorem keysBelow_pushKey {s : State} (v : Byte) (h : s.feistel.fkn.toNat < 16) :
    keysBelow (s.pushKey v).feistel (s.pushKey v).feistel.fkn.toNat =
      keysBelow s.feistel s.feistel.fkn.toNat ++ [v] := by
  have hold : keysBelow (s.pushKey v).feistel s.feistel.fkn.toNat = keysBelow s.feistel s.feistel.fkn.toNat :=
    keysBelow_congr fun j hj => getElem?_fk_pushKey_of_ne v hj.ne
  rw [toNat_fkn_pushKey v h, keysBelow_succ, hold, keyAt_pushKey s v _ h, if_pos rfl]

/-- Settles O19: only two writes touch the keys below FKN, and a push that passed its check had room. -/
theorem keySequenceGrowsOnlyByPush : Obligations.KeySequenceGrowsOnlyByPush := by
  intro i s t hfkn h
  obtain ⟨u, r, rfl, hu, -⟩ := exec_next h
  cases hu with
  | clearKeys => exact .inr (.inl ⟨rfl, rfl⟩)
  | pushKey v hroom => exact .inr (.inr ⟨v, rfl, keysBelow_pushKey v (by omega)⟩)
  | _ => exact .inl rfl

/-- Settles O1: by what running the next host input does. -/
theorem stepRunsTheDecodedCommand : Obligations.StepRunsTheDecodedCommand := fun _ _ _ _ hpending hdec =>
  runNext_of_command exec hpending hdec

/-- Settles O8: the reset event writes registers only, and waiting writes nothing. -/
theorem portOverResetAndWaiting : Obligations.PortOverResetAndWaiting :=
  ⟨fun _ _ h => ⟨_, step_of_reset h, rfl, rfl⟩, fun _ h => runNext_of_nil exec h⟩

theorem code_mem (e : Status) : e.code ∈ [0x00#8, 0x01#8, 0x02#8, 0x03#8, 0x04#8, 0x05#8] := by
  cases e <;> decide

/-- Settles O9: the step of a word answers once, and a response word is a code over the data. -/
theorem everyWordGetsOneResponse : Obligations.EveryWordGetsOneResponse := by
  intro s w rest hpending
  obtain ⟨t, r, hnext, htaken, hresponses, -⟩ := step_answersOnce hpending
  refine ⟨t, r, hnext, htaken, hresponses, ?_, extractLsb'_append_low _ _⟩
  rw [Rsp.toWord, extractLsb'_append_high]
  exact code_mem r.status

/-- Settles O11: every register is 0 after reset, and nothing has been answered. -/
theorem resetIsLegalAndFormed : Obligations.ResetIsLegalAndFormed :=
  ⟨reset_legal [] [], List.forall_mem_nil _⟩

end Sys2Proof.Machine
end

section
/-! The three engines (R20, R40): every command reads and writes the registers of one engine only, whatever the other
engines and the port hold (R23, R36). Commands of different engines commute, no command observes the port, a load or a
read may be repeated (R55), and the keys at or above FKN are never observed (R28, R241). -/

namespace Sys2Proof.Machine

open Host (Outcome)

/-! ### One engine's registers -/

/-- The registers of an engine. -/
@[reducible] def Registers : Engine → Type
  | .spn => Spn
  | .feistel => Feistel
  | .lfsr => Lfsr

/-- The registers of an engine in a state. -/
def registersOf : (e : Engine) → State → Registers e
  | .spn, s => s.spn
  | .feistel, s => s.feistel
  | .lfsr, s => s.lfsr

/-- The state with the registers of an engine replaced. -/
def withRegisters : (e : Engine) → State → Registers e → State
  | .spn, s, a => { s with spn := a }
  | .feistel, s, a => { s with feistel := a }
  | .lfsr, s, a => { s with lfsr := a }

@[simp] theorem registersOf_respond (e : Engine) (s : State) (r : Rsp) :
    registersOf e (s.respond r) = registersOf e s := by cases e <;> rfl

@[simp] theorem registersOf_withRegisters_self (e : Engine) (s : State) (a : Registers e) :
    registersOf e (withRegisters e s a) = a := by cases e <;> rfl

theorem registersOf_withRegisters_of_ne {e e' : Engine} (h : e ≠ e') (s : State) (a : Registers e') :
    registersOf e (withRegisters e' s a) = registersOf e s := by
  cases e' with
  | spn =>
    cases e with
    | spn => exact absurd rfl h
    | feistel | lfsr => rfl
  | feistel =>
    cases e with
    | feistel => exact absurd rfl h
    | spn | lfsr => rfl
  | lfsr =>
    cases e with
    | lfsr => exact absurd rfl h
    | spn | feistel => rfl

@[simp] theorem withRegisters_registersOf (e : Engine) (s : State) : withRegisters e s (registersOf e s) = s := by
  cases e <;> rfl

@[simp] theorem withRegisters_responses (e : Engine) (s : State) (a : Registers e) :
    (withRegisters e s a).responses = s.responses := by cases e <;> rfl

@[simp] theorem withRegisters_pending (e : Engine) (s : State) (a : Registers e) :
    (withRegisters e s a).pending = s.pending := by cases e <;> rfl

/-- Two states hold the same registers. -/
def SameRegisters (s t : State) : Prop := ∀ e, registersOf e s = registersOf e t

theorem SameRegisters.engines {s t : State} (h : SameRegisters s t) :
    s.spn = t.spn ∧ s.feistel = t.feistel ∧ s.lfsr = t.lfsr := ⟨h .spn, h .feistel, h .lfsr⟩

theorem sameRegisters_port (s : State) (p : List HostInput) (rs : List Rsp) :
    SameRegisters { s with pending := p, responses := rs } s := by
  intro e
  cases e <;> rfl

theorem SameRegisters.withRegisters {s t : State} (h : SameRegisters s t) (e : Engine) (a : Registers e) :
    SameRegisters (withRegisters e s a) (withRegisters e t a) := by
  intro e'
  by_cases he : e' = e
  · subst he
    simp
  · rw [registersOf_withRegisters_of_ne he, registersOf_withRegisters_of_ne he, h e']

/-! ### Every command is local to an engine -/

/-- What a command does is a function of one engine's registers, to new registers of that engine and a response. -/
def LocalTo (e : Engine) (k : State → Outcome State Fault Refusal) : Prop :=
  ∃ f : Registers e → Registers e × Rsp,
    ∀ s, k s = .next ((withRegisters e s (f (registersOf e s)).1).respond (f (registersOf e s)).2)

/-- The function of a command that is local, read off its run from the reset state with the engine's registers put
in. -/
def effectOn (e : Engine) (k : State → Outcome State Fault Refusal) (a : Registers e) : Registers e × Rsp :=
  match k (withRegisters e State.reset a) with
  | .next t => (registersOf e t, t.responses.headD ⟨.ok, 0#24⟩)
  | .fault f => nomatch f
  | .refused _ => (a, ⟨.ok, 0#24⟩)

theorem localTo_raise (e : Engine) (x : Status) : LocalTo e (raise x) :=
  ⟨fun a => (a, ⟨x, 0#24⟩), fun s => by rw [withRegisters_registersOf]; rfl⟩

theorem localTo_execIllegal (e : Engine) : LocalTo e execIllegal := localTo_raise e _

/-- A command that completes whatever the state: its effect is read off its run. -/
theorem localTo_of_effectOn {e : Engine} {k : State → Outcome State Fault Refusal}
    (h : ∀ s, k s = .next ((withRegisters e s (effectOn e k (registersOf e s)).1).respond
      (effectOn e k (registersOf e s)).2)) : LocalTo e k := ⟨_, h⟩

theorem LocalTo.guarded {e : Engine} {k : State → Outcome State Fault Refusal} (h : LocalTo e k)
    (check : Registers e → Option Status) : LocalTo e fun s => guarded (check (registersOf e s)) s (k s) := by
  obtain ⟨f, hf⟩ := h
  obtain ⟨g, hg⟩ : ∃ g : Status → Registers e → Registers e × Rsp, ∀ x s,
      (raise x s : Outcome State Fault Refusal) = .next ((withRegisters e s (g x (registersOf e s)).1).respond (g x (registersOf e s)).2) :=
    Classical.skolem.mp (localTo_raise e)
  refine ⟨fun a => (check a).elim (f a) (g · a), fun s => ?_⟩
  dsimp only
  cases check (registersOf e s) with
  | none => exact hf s
  | some x => exact hg x s

theorem LocalTo.ite_execIllegal {e : Engine} {k : State → Outcome State Fault Refusal} (h : LocalTo e k) (p : Prop)
    [Decidable p] : LocalTo e fun s => if p then k s else execIllegal s := by
  by_cases hp : p
  · simpa only [if_pos hp] using h
  · simpa only [if_neg hp] using localTo_execIllegal e

theorem localTo_execSrd (sel : BitVec 2) : LocalTo .spn (execSrd sel) := by
  unfold execSrd
  split
  case h_1 | h_2 | h_3 => exact localTo_of_effectOn fun _ => rfl
  case h_4 => exact localTo_execIllegal _

theorem localTo_execFrd (sel : BitVec 2) (idx : BitVec 4) : LocalTo .feistel (execFrd sel idx) := by
  unfold execFrd
  split
  case h_1 | h_2 => exact LocalTo.ite_execIllegal (localTo_of_effectOn fun _ => rfl) _
  case h_3 =>
    exact LocalTo.guarded (e := .feistel) (localTo_of_effectOn fun _ => rfl)
      fun f : Feistel => if f.fkn.toNat ≤ idx.toNat then some .indexOutOfRange else none
  case h_4 => exact localTo_execIllegal _

theorem localTo_execLrd (sel : BitVec 2) : LocalTo .lfsr (execLrd sel) := by
  unfold execLrd
  split
  case h_1 | h_2 | h_3 | h_4 => exact localTo_of_effectOn fun _ => rfl

theorem localTo_exec_spn {i : Instr} (h : i.engine = none ∨ i.engine = some .spn) : LocalTo .spn (exec i) := by
  cases i with
  | nop | sldb _ | sldk _ | sldrk _ | skder _ | sxor | ssub | sisub | sperm | siperm | srenc | srdec | senc | sdec =>
    exact localTo_of_effectOn fun _ => rfl
  | srd sel => exact localTo_execSrd sel
  | _ => simp [Instr.engine] at h

theorem localTo_exec_feistel {i : Instr} (h : i.engine = none ∨ i.engine = some .feistel) :
    LocalTo .feistel (exec i) := by
  cases i with
  | nop | fldb _ | fkclr | ff _ _ | frnd _ | firnd _ | fenc | fdec => exact localTo_of_effectOn fun _ => rfl
  | fkpush v =>
    exact LocalTo.guarded (e := .feistel) (localTo_of_effectOn fun _ => rfl)
      fun f : Feistel => if f.fkn.toNat = Config.fkDepth then some .capacityExceeded else none
  | fencn n | fdecn n =>
    exact LocalTo.guarded (e := .feistel) (localTo_of_effectOn fun _ => rfl)
      fun f : Feistel => roundCountError f n.toNat
  | frd sel idx => exact localTo_execFrd sel idx
  | _ => simp [Instr.engine] at h

theorem localTo_advance (n : Nat) (v : Wide) : LocalTo .lfsr (advance .serial n v) := localTo_of_effectOn fun _ => rfl

theorem localTo_exec_lfsr {i : Instr} (h : i.engine = none ∨ i.engine = some .lfsr) : LocalTo .lfsr (exec i) := by
  cases i with
  | nop | lldt _ | lsetd _ | lrst => exact localTo_of_effectOn fun _ => rfl
  | llds w v => exact LocalTo.guarded (e := .lfsr) (localTo_of_effectOn fun _ => rfl) fun _ : Lfsr => seedError w v
  | lstep => exact (localTo_advance 1 0#16).guarded fun l : Lfsr => steppingError l 1
  | lgen n =>
    exact ((localTo_advance n.toNat 0#16).guarded fun l : Lfsr => steppingError l n.toNat).ite_execIllegal _
  | lenc n v =>
    exact ((localTo_advance n.toNat v).guarded fun l : Lfsr => streamError l n.toNat v).ite_execIllegal _
  | lrd sel => exact localTo_execLrd sel
  | _ => simp [Instr.engine] at h

/-- A command is local to its engine, and NOP to each (R20, R40). -/
theorem localTo_exec {i : Instr} {e : Engine} (h : i.engine = none ∨ i.engine = some e) : LocalTo e (exec i) := by
  cases e with
  | spn => exact localTo_exec_spn h
  | feistel => exact localTo_exec_feistel h
  | lfsr => exact localTo_exec_lfsr h

theorem exists_localTo_exec (i : Instr) : ∃ e, LocalTo e (exec i) := by
  cases h : i.engine with
  | none => exact ⟨.spn, localTo_exec (.inl h)⟩
  | some e => exact ⟨e, localTo_exec (.inr h)⟩

/-! ### Commands of different engines -/

theorem exists_ne_engine : ∀ e : Engine, ∃ e', e ≠ e' := by
  intro e
  cases e with
  | spn => exact ⟨.lfsr, nofun⟩
  | feistel | lfsr => exact ⟨.spn, nofun⟩

/-- Commands of different engines, or NOP and any command, are local to two different engines. -/
theorem exists_ne_localTo {i j : Instr} (h : i.engine = none ∨ j.engine = none ∨ i.engine ≠ j.engine) :
    ∃ e e', e ≠ e' ∧ LocalTo e (exec i) ∧ LocalTo e' (exec j) := by
  cases hi : i.engine with
  | none =>
    obtain ⟨e', hj⟩ := exists_localTo_exec j
    obtain ⟨e, hne⟩ := exists_ne_engine e'
    exact ⟨e, e', hne.symm, localTo_exec (.inl hi), hj⟩
  | some e =>
    cases hj : j.engine with
    | none =>
      obtain ⟨e', hne⟩ := exists_ne_engine e
      exact ⟨e, e', hne, localTo_exec (.inr hi), localTo_exec (.inl hj)⟩
    | some e' => exact ⟨e, e', by simpa [hi, hj] using h, localTo_exec (.inr hi), localTo_exec (.inr hj)⟩

/-- Registers of different engines may be written in either order. -/
theorem sameRegisters_withRegisters_comm {e e' : Engine} (h : e ≠ e') (s : State) (a : Registers e)
    (b : Registers e') (r q r' q' : Rsp) :
    SameRegisters ((withRegisters e' ((withRegisters e s a).respond r) b).respond q)
      ((withRegisters e ((withRegisters e' s b).respond r') a).respond q') := by
  intro x
  by_cases hx : x = e
  · subst hx
    simp [registersOf_withRegisters_of_ne h]
  · by_cases hx' : x = e'
    · subst hx'
      simp [registersOf_withRegisters_of_ne hx]
    · simp [registersOf_withRegisters_of_ne hx, registersOf_withRegisters_of_ne hx']

/-- Settles O17: neither command reads or writes the registers of the other's engine. -/
theorem differentEnginesCommute : Obligations.DifferentEnginesCommute := by
  intro i j s h
  obtain ⟨e, e', hne, ⟨f, hf⟩, g, hg⟩ := exists_ne_localTo h
  have hsecond := hg ((withRegisters e s (f (registersOf e s)).1).respond (f (registersOf e s)).2)
  have hsecond' := hf ((withRegisters e' s (g (registersOf e' s)).1).respond (g (registersOf e' s)).2)
  rw [registersOf_respond, registersOf_withRegisters_of_ne hne.symm] at hsecond
  rw [registersOf_respond, registersOf_withRegisters_of_ne hne] at hsecond'
  obtain ⟨hspn, hfeistel, hlfsr⟩ := (sameRegisters_withRegisters_comm hne s (f (registersOf e s)).1
    (g (registersOf e' s)).1 (f (registersOf e s)).2 (g (registersOf e' s)).2 (g (registersOf e' s)).2
    (f (registersOf e s)).2).engines
  exact ⟨_, _, _, _, (f (registersOf e s)).2, (g (registersOf e' s)).2, hf s, hsecond, hg s, hsecond', hspn, hfeistel,
    hlfsr, by simp, by simp, by simp, by simp⟩

/-! ### The port -/

/-- Settles O20: the command's effect is a function of registers alone. -/
theorem noCommandReadsThePort : Obligations.NoCommandReadsThePort := by
  intro i s p rs
  obtain ⟨e, f, hf⟩ := exists_localTo_exec i
  have hsame := sameRegisters_port s p rs
  have hport := hf { s with pending := p, responses := rs }
  rw [hsame e] at hport
  obtain ⟨hspn, hfeistel, hlfsr⟩ := (hsame.withRegisters e (f (registersOf e s)).1).engines
  exact ⟨_, _, (f (registersOf e s)).2, hf s, hport, hspn, hfeistel, hlfsr, by simp, by simp, by simp⟩

/-! ### Commands that may be repeated -/

/-- A second issue leaves the registers as the first left them and answers the same. -/
def Repeats (i : Instr) (s : State) : Prop :=
  ∃ t u r, exec i s = .next t ∧ exec i t = .next u ∧ u.spn = t.spn ∧ u.feistel = t.feistel ∧ u.lfsr = t.lfsr ∧
    t.responses = s.responses ++ [r] ∧ u.responses = s.responses ++ [r, r]

/-- It is enough that the command gives the same from the registers it has written: it does not read its response. -/
theorem repeats_of_settled {i : Instr} {s u : State} {r : Rsp} (hfirst : exec i s = .next (u.respond r))
    (hsettled : exec i u = .next (u.respond r)) (hresponses : u.responses = s.responses) : Repeats i s := by
  obtain ⟨t, t', q, ht, ht', hspn, hfeistel, hlfsr, hq, hq', -⟩ :=
    noCommandReadsThePort i u u.pending (u.responses ++ [r])
  obtain rfl : u.respond r = t := Outcome.next.inj (hsettled.symm.trans ht)
  obtain rfl : r = q := List.singleton_inj.mp (List.append_cancel_left hq)
  exact ⟨_, t', r, hfirst, ht', hspn, hfeistel, hlfsr, by simp [hresponses], by simp [hq', hresponses]⟩

/-- A command that writes no register may be repeated. -/
theorem repeats_of_keeps {i : Instr} {s : State} (h : ∀ u, Update s i u → u = s) : Repeats i s := by
  obtain ⟨u, r, hnext, hu, -⟩ := exec_does i s
  obtain rfl := h u hu
  exact repeats_of_settled hnext hnext rfl

theorem repeats_llds (w : BitVec 5) (v : Wide) (s : State) : Repeats (.llds w v) s := by
  cases h : seedError w v with
  | none =>
    exact repeats_of_settled (u := s.loadSeed w v) (exec_llds_of_none h s) (exec_llds_of_none h (s.loadSeed w v)) rfl
  | some e => exact repeats_of_settled (u := s) (exec_llds_of_error h s) (exec_llds_of_error h s) rfl

/-- Settles O21: a load or a configuration command gives the same again from what it has written, and a read writes
nothing. -/
theorem repeatingALoadOrReadChangesNothingMore : Obligations.RepeatingALoadOrReadChangesNothingMore := by
  intro i s hi
  cases i with
  | nop | sldb _ | sldk _ | sldrk _ | skder _ | fldb _ | fkclr | ff _ _ | lldt _ | lsetd _ | lrst =>
    exact repeats_of_settled rfl rfl rfl
  | srd _ | frd _ _ | lrd _ =>
    refine repeats_of_keeps fun u hu => ?_
    cases hu with
    | keep => rfl
    | setSb _ hi | setSrk _ hi | setBlock _ hi | advance _ hi => simp [Instr.mnemonic] at hi
  | llds w v => exact repeats_llds w v s
  | _ => simp [Instr.mnemonic] at hi

/-! ### Keys at or above FKN -/

section
variable {s s' : State}

/-- Two outcomes are next states that differ at most in keys at or above FKN. -/
def AlikeButDeadKeys (o o' : Outcome State Fault Refusal) : Prop :=
  ∃ t t', o = .next t ∧ o' = .next t' ∧ SameButDeadKeys t t'

theorem SameButDeadKeys.respond (h : SameButDeadKeys s s') (r : Rsp) :
    SameButDeadKeys (s.respond r) (s'.respond r) := by
  obtain ⟨hspn, hlfsr, hpending, hresponses, hkeys⟩ := h
  exact ⟨hspn, hlfsr, hpending, congrArg (· ++ [r]) hresponses, hkeys⟩

theorem SameButDeadKeys.taken (h : SameButDeadKeys s s') (rest : List HostInput) :
    SameButDeadKeys { s with pending := rest } { s' with pending := rest } := by
  obtain ⟨hspn, hlfsr, -, hresponses, hkeys⟩ := h
  exact ⟨hspn, hlfsr, rfl, hresponses, hkeys⟩

theorem SameButDeadKeys.setBlock (h : SameButDeadKeys s s') (b : Byte × Byte) :
    SameButDeadKeys (s.setBlock b) (s'.setBlock b) := by
  obtain ⟨hspn, hlfsr, hpending, hresponses, -, -, hkeys⟩ := h
  exact ⟨hspn, hlfsr, hpending, hresponses, rfl, rfl, hkeys⟩

theorem SameButDeadKeys.clearKeys (h : SameButDeadKeys s s') : SameButDeadKeys s.clearKeys s'.clearKeys := by
  obtain ⟨hspn, hlfsr, hpending, hresponses, hfl, hfr, -⟩ := h
  exact ⟨hspn, hlfsr, hpending, hresponses, hfl, hfr, rfl, fun k hk => absurd hk (Nat.not_lt_zero k)⟩

/-- The key pushed is the one entry that comes to life. -/
theorem SameButDeadKeys.pushKey (h : SameButDeadKeys s s') (v : Byte) :
    SameButDeadKeys (s.pushKey v) (s'.pushKey v) := by
  obtain ⟨hspn, hlfsr, hpending, hresponses, hfl, hfr, hfkn, hfk⟩ := h
  refine ⟨hspn, hlfsr, hpending, hresponses, hfl, hfr, congrArg (· + 1#5) hfkn, fun k hk => ?_⟩
  have hle : k ≤ s.feistel.fkn.toNat := by
    have : (s.feistel.fkn + 1#5).toNat ≤ s.feistel.fkn.toNat + 1 := by
      rw [BitVec.toNat_add]
      exact Nat.mod_le _ _
    rw [State.pushKey_fkn] at hk
    omega
  rw [State.pushKey_fk, State.pushKey_fk, ← hfkn, Vector.getElem?_setIfInBounds, Vector.getElem?_setIfInBounds]
  split
  case isTrue => rfl
  case isFalse hne => exact hfk k (by omega)

/-- Writing another engine's registers leaves the Feistel registers alone. -/
theorem SameButDeadKeys.withRegisters (h : SameButDeadKeys s s') {e : Engine} (he : e ≠ .feistel) (a : Registers e) :
    SameButDeadKeys (withRegisters e s a) (withRegisters e s' a) := by
  obtain ⟨hspn, hlfsr, hrest⟩ := h
  cases e with
  | spn => exact ⟨rfl, hlfsr, hrest⟩
  | lfsr => exact ⟨hspn, rfl, hrest⟩
  | feistel => exact absurd rfl he

theorem SameButDeadKeys.registersOf_eq (h : SameButDeadKeys s s') {e : Engine} (he : e ≠ .feistel) :
    registersOf e s = registersOf e s' := by
  obtain ⟨hspn, hlfsr, -⟩ := h
  cases e with
  | spn => exact hspn
  | lfsr => exact hlfsr
  | feistel => exact absurd rfl he

theorem SameButDeadKeys.fkn_eq (h : SameButDeadKeys s s') : s.feistel.fkn = s'.feistel.fkn := by
  obtain ⟨-, -, -, -, -, -, hfkn, -⟩ := h
  exact hfkn

theorem SameButDeadKeys.blockOf_eq (h : SameButDeadKeys s s') : blockOf s.feistel = blockOf s'.feistel := by
  obtain ⟨-, -, -, -, hfl, hfr, -⟩ := h
  exact Prod.ext hfl hfr

theorem SameButDeadKeys.keysBelow_eq (h : SameButDeadKeys s s') {n : Nat} (hn : n ≤ s.feistel.fkn.toNat) :
    keysBelow s.feistel n = keysBelow s'.feistel n := by
  obtain ⟨-, -, -, -, -, -, -, hfk⟩ := h
  exact keysBelow_congr fun k hk => hfk k (by omega)

theorem SameButDeadKeys.keyAt_eq (h : SameButDeadKeys s s') {k : Nat} (hk : k < s.feistel.fkn.toNat) :
    keyAt s.feistel k = keyAt s'.feistel k := by
  obtain ⟨-, -, -, -, -, -, -, hfk⟩ := h
  rw [keyAt, keyAt, hfk k hk]

theorem SameButDeadKeys.reply (h : SameButDeadKeys s s') (d : Area) : AlikeButDeadKeys (reply d s) (reply d s') :=
  ⟨_, _, rfl, rfl, h.respond _⟩

theorem SameButDeadKeys.replyBlock (h : SameButDeadKeys s s') :
    AlikeButDeadKeys (replyBlock s) (replyBlock s') := by
  have hfl : s.feistel.fl = s'.feistel.fl := congrArg Prod.fst h.blockOf_eq
  have hfr : s.feistel.fr = s'.feistel.fr := congrArg Prod.snd h.blockOf_eq
  rw [Machine.replyBlock, Machine.replyBlock, hfl, hfr]
  exact h.reply _

theorem SameButDeadKeys.execIllegal (h : SameButDeadKeys s s') : AlikeButDeadKeys (execIllegal s) (execIllegal s') :=
  ⟨_, _, rfl, rfl, h.respond _⟩

theorem SameButDeadKeys.guarded (h : SameButDeadKeys s s') {e : Option Status} {k k' : Outcome State Fault Refusal}
    (hk : e = none → AlikeButDeadKeys k k') : AlikeButDeadKeys (guarded e s k) (guarded e s' k') := by
  cases e with
  | none => exact hk rfl
  | some x => exact ⟨_, _, rfl, rfl, h.respond _⟩

/-- A command local to another engine does not see the key table. -/
theorem SameButDeadKeys.localTo (h : SameButDeadKeys s s') {e : Engine} (he : e ≠ .feistel)
    {k : State → Outcome State Fault Refusal} (hk : LocalTo e k) : AlikeButDeadKeys (k s) (k s') := by
  obtain ⟨f, hf⟩ := hk
  rw [hf, hf, h.registersOf_eq he]
  exact ⟨_, _, rfl, rfl, (h.withRegisters he _).respond _⟩

/-- The rounds of a checked count use keys below FKN only. -/
theorem SameButDeadKeys.checkedRounds (h : SameButDeadKeys s s') (cipher : Byte × Byte → List Byte → Byte × Byte)
    (n : Nat) :
    AlikeButDeadKeys
      (Machine.guarded (roundCountError s.feistel n) s
        (Machine.replyBlock (s.setBlock (cipher (blockOf s.feistel) (keysBelow s.feistel n)))))
      (Machine.guarded (roundCountError s'.feistel n) s'
        (Machine.replyBlock (s'.setBlock (cipher (blockOf s'.feistel) (keysBelow s'.feistel n))))) := by
  have hcheck : roundCountError s.feistel n = roundCountError s'.feistel n := by
    rw [roundCountError, roundCountError, h.fkn_eq]
  rw [← hcheck, ← h.blockOf_eq]
  refine h.guarded fun hnone => ?_
  rw [h.keysBelow_eq ((roundCountError_eq_none _ _).mp hnone)]
  exact (h.setBlock _).replyBlock

theorem SameButDeadKeys.execFrd (h : SameButDeadKeys s s') (sel : BitVec 2) (idx : BitVec 4) :
    AlikeButDeadKeys (execFrd sel idx s) (execFrd sel idx s') := by
  unfold Machine.execFrd
  split
  case h_1 =>
    split
    case isTrue => exact h.replyBlock
    case isFalse => exact h.execIllegal
  case h_2 =>
    rw [h.fkn_eq]
    split
    case isTrue => exact h.reply _
    case isFalse => exact h.execIllegal
  case h_3 =>
    rw [← h.fkn_eq]
    refine h.guarded fun hnone => ?_
    rw [h.keyAt_eq (by_contra fun hk => by simp [hk] at hnone)]
    exact h.reply _
  case h_4 => exact h.execIllegal

theorem SameButDeadKeys.exec_feistel (h : SameButDeadKeys s s') {i : Instr} (hi : i.engine = some .feistel) :
    AlikeButDeadKeys (exec i s) (exec i s') := by
  cases i with
  | fldb v => exact (h.setBlock _).replyBlock
  | fkclr => exact h.clearKeys.replyBlock
  | fkpush v =>
    have hfkn := h.fkn_eq
    rw [Machine.exec, Machine.exec, execFkpush, execFkpush, ← hfkn]
    exact h.guarded fun _ => (h.pushKey v).replyBlock
  | ff a b => exact h.reply _
  | frnd k =>
    rw [writesBlock_frnd k s, writesBlock_frnd k s', h.blockOf_eq]
    exact (h.setBlock _).replyBlock
  | firnd k =>
    rw [writesBlock_firnd k s, writesBlock_firnd k s', h.blockOf_eq]
    exact (h.setBlock _).replyBlock
  | fenc =>
    rw [exec_fenc_eq_fencn, exec_fenc_eq_fencn, ← h.fkn_eq]
    exact h.checkedRounds feistelEncrypt _
  | fencn n => exact h.checkedRounds feistelEncrypt n.toNat
  | fdec =>
    rw [exec_fdec_eq_fdecn, exec_fdec_eq_fdecn, ← h.fkn_eq]
    exact h.checkedRounds feistelDecrypt _
  | fdecn n => exact h.checkedRounds feistelDecrypt n.toNat
  | frd sel idx => exact h.execFrd sel idx
  | _ => simp [Instr.engine] at hi

theorem SameButDeadKeys.exec (h : SameButDeadKeys s s') (i : Instr) : AlikeButDeadKeys (exec i s) (exec i s') := by
  by_cases hi : i.engine = some .feistel
  · exact h.exec_feistel hi
  · cases he : i.engine with
    | none => exact h.localTo (e := .spn) nofun (localTo_exec (.inl he))
    | some e => exact h.localTo (fun hf => hi (hf ▸ he)) (localTo_exec (.inr he))

end

/-- Settles O18: states that differ only there take the same input, and every command looks at keys below FKN only. -/
theorem deadKeysAreUnobservable : Obligations.DeadKeysAreUnobservable := by
  intro s s' t h hstep
  have halike : AlikeButDeadKeys (step s) (step s') := by
    obtain ⟨-, -, hpending, -⟩ := id h
    refine runNext_related hpending ⟨s, s', rfl, rfl, h⟩ ?_ (fun i rest => (h.taken rest).exec i)
      (fun rest => (h.taken rest).execIllegal)
    intro rest
    obtain ⟨-, -, -, hresponses, -⟩ := h
    exact ⟨_, _, rfl, rfl, rfl, rfl, rfl, hresponses, rfl, rfl, rfl, fun _ _ => rfl⟩
  obtain ⟨u, t', hu, ht', hsame⟩ := halike
  obtain rfl : t = u := Outcome.next.inj (hstep.symm.trans hu)
  exact ⟨t', ht', hsame⟩

end Sys2Proof.Machine
end

section
/-! The model's organisations (R9, R251, assumption 10): the serial substitution, the unrolled LFSR run and the unrolled
Feistel rounds compute the functions of the rules, and so every command answers the same in each of them. -/

namespace Sys2Proof.Machine

open Host (Outcome)
open Sys2Proof.Config (Organisation SboxMode LfsrShiftMode FeistelRoundMode RoundSchedule)

/-! ### Substitution group by group -/

/-- One lookup replaces its own group and no other. -/
theorem extractLsb'_substituteGroup (t : BitVec 2 → BitVec 2) (x : Byte) {g k : Nat} (hg : g < 4) (hk : k < 4) :
    (substituteGroup t x g).extractLsb' (6 - 2 * k) 2 =
      if k = g then t (x.extractLsb' (6 - 2 * k) 2) else x.extractLsb' (6 - 2 * k) 2 := by
  rw [substituteGroup]
  generalize hy : t (x.extractLsb' (6 - 2 * g) 2) = y
  split
  case isTrue h =>
    subst h
    rw [hy]
    apply BitVec.eq_of_getLsbD_eq
    intro j hj
    interval_cases k <;> interval_cases j <;> simp
  case isFalse h =>
    apply BitVec.eq_of_getLsbD_eq
    intro j hj
    interval_cases g <;> interval_cases k <;> interval_cases j <;> simp at h ⊢

/-- A block is determined by its groups. -/
theorem eq_of_groups {x y : Byte} (h : ∀ k < 4, x.extractLsb' (6 - 2 * k) 2 = y.extractLsb' (6 - 2 * k) 2) : x = y := by
  rw [← groups_append x, ← groups_append y, h 0 (by decide), h 1 (by decide), h 2 (by decide), h 3 (by decide)]

theorem substituteBy_eq_mapGroups (m : SboxMode) (t : BitVec 2 → BitVec 2) (x : Byte) :
    substituteBy m t x = mapGroups t x := by
  cases m with
  | parallel => rfl
  | serial =>
    refine eq_of_groups fun k hk => ?_
    rw [extractLsb'_mapGroups t x hk]
    simp only [substituteBy, List.foldl_cons, List.foldl_nil, extractLsb'_substituteGroup t _ (by decide : 0 < 4) hk,
      extractLsb'_substituteGroup t _ (by decide : 1 < 4) hk, extractLsb'_substituteGroup t _ (by decide : 2 < 4) hk,
      extractLsb'_substituteGroup t _ (by decide : 3 < 4) hk]
    interval_cases k <;> rfl

/-! ### The LFSR run unrolled -/

/-- Packing one sequence after another puts the second right of the first (R12). -/
theorem packBits_append (as bs : List Bool) : packBits (as ++ bs) = packBits as ||| (packBits bs >>> as.length) := by
  induction as with
  | nil => simp [packBits]
  | cons a as ih =>
    simp only [List.cons_append, packBits, ih, List.length_cons, BitVec.or_assoc, BitVec.ushiftRight_or_distrib]
    rw [BitVec.shiftRight_add]

theorem packBits_singleton_ushiftRight (b : Bool) {k : Nat} (hk : k < 16) :
    packBits [b] >>> k = bitAt b (15 - k) := by
  have h : ∀ b, ∀ k < 16, packBits [b] >>> k = bitAt b (15 - k) := by decide
  exact h b k hk

theorem lfsrRun_succ (w : Nat) (lt : Wide) (d : Direction) (n : Nat) (ls : Wide) :
    lfsrRun w lt d (n + 1) ls =
      ((lfsrRun w lt d n ls).1 ++ [(lfsrStep w lt d (lfsrRun w lt d n ls).2).1],
        (lfsrStep w lt d (lfsrRun w lt d n ls).2).2) := lfsrRun_add w lt d n 1 ls

/-- After k stages the unrolled engine holds what k steps leave, or n steps when no more were asked for. -/
theorem foldl_unrolledStage (w : Nat) (lt : Wide) (d : Direction) (n : Nat) (ls : Wide) {k : Nat} (hk : k ≤ 16) :
    (List.range k).foldl (unrolledStage w lt d n) (0#16, ls) =
      (packBits (lfsrRun w lt d (min k n) ls).1, (lfsrRun w lt d (min k n) ls).2) := by
  induction k with
  | zero => simp [lfsrRun, packBits]
  | succ k ih =>
    rw [List.range_succ, List.foldl_append, ih (by omega), List.foldl_cons, List.foldl_nil, unrolledStage]
    split
    case isTrue h =>
      rw [min_eq_left (by omega : k ≤ n), min_eq_left (by omega : k + 1 ≤ n), lfsrRun_succ, packBits_append,
        length_lfsrRun, packBits_singleton_ushiftRight _ (by omega)]
    case isFalse h => rw [min_eq_right (by omega : n ≤ k), min_eq_right (by omega : n ≤ k + 1)]

theorem lfsrRunBy_eq (m : LfsrShiftMode) (w : Nat) (lt : Wide) (d : Direction) {n : Nat} (hn : n ≤ 16) (ls : Wide) :
    lfsrRunBy m w lt d n ls = (packBits (lfsrRun w lt d n ls).1, (lfsrRun w lt d n ls).2) := by
  cases m with
  | serial => rfl
  | parallel =>
    have h := foldl_unrolledStage w lt d n ls (Nat.le_refl 16)
    rwa [min_eq_right hn] at h

theorem lfsrAdvanceBy_eq_serial (m : LfsrShiftMode) (l : Lfsr) {n : Nat} (hn : n ≤ 16) :
    lfsrAdvanceBy m l n = lfsrAdvanceBy .serial l n := by
  unfold lfsrAdvanceBy
  split
  case h_1 => rw [lfsrRunBy_eq m _ _ _ hn, lfsrRunBy_eq .serial _ _ _ hn]
  case h_2 => rfl

/-! ### The Feistel rounds unrolled -/

theorem foldl_roundStage (round : Byte × Byte → Byte → Byte × Byte) (keys : List Byte) (b : Byte × Byte) (k : Nat) :
    (List.range k).foldl (roundStage round keys) b = (keys.take k).foldl round b := by
  induction k with
  | zero => rfl
  | succ k ih =>
    rw [List.range_succ, List.foldl_append, ih, List.foldl_cons, List.foldl_nil]
    by_cases hk : k < keys.length
    · rw [roundStage_of_lt hk, List.take_add_one, List.getElem?_eq_getElem hk, List.foldl_append]
      rfl
    · rw [roundStage_of_length_le (Nat.not_lt.mp hk), List.take_of_length_le (by omega),
        List.take_of_length_le (by omega)]

theorem roundsBy_eq_foldl (m : RoundSchedule) (round : Byte × Byte → Byte → Byte × Byte) (b : Byte × Byte)
    {keys : List Byte} (h : keys.length ≤ 16) : roundsBy m round b keys = keys.foldl round b := by
  cases m with
  | iterated => rfl
  | unrolled =>
    rw [roundsBy, foldl_roundStage, Config.fkDepth, List.take_of_length_le h]

/-- The round datapath has one value, that of the rules (R9, R142, R143). -/
theorem feistelRoundBy_eq (m : FeistelRoundMode) : feistelRoundBy m = feistelRound := by cases m; rfl

theorem feistelInvRoundBy_eq (m : FeistelRoundMode) : feistelInvRoundBy m = feistelInvRound := by cases m; rfl

/-- Settles O54: each organisation computes its rule's function. -/
theorem organisationsAgree : Obligations.OrganisationsAgree :=
  ⟨substituteBy_eq_mapGroups, fun m w lt d _ ls hn => lfsrRunBy_eq m w lt d hn ls,
    fun m b k => ⟨by rw [feistelRoundBy_eq], by rw [feistelInvRoundBy_eq]⟩,
    fun m round b _ h => roundsBy_eq_foldl m round b h⟩

/-! ### The operations of the commands, in any organisation -/

section
variable (o : Organisation)

theorem substituteIn_eq : substituteIn o = substitute := funext (substituteBy_eq_mapGroups _ sbox)

theorem invSubstituteIn_eq : invSubstituteIn o = invSubstitute := funext (substituteBy_eq_mapGroups _ invSbox)

theorem roundEncryptIn_eq (b k : Byte) : roundEncryptIn o b k = roundEncrypt b k := by
  rw [roundEncryptIn, substituteIn_eq, roundEncrypt]

theorem roundDecryptIn_eq (b k : Byte) : roundDecryptIn o b k = roundDecrypt b k := by
  rw [roundDecryptIn, invSubstituteIn_eq, roundDecrypt]

theorem spnEncryptIn_eq (p k : Byte) : spnEncryptIn o p k = spnEncrypt p k := by
  rw [spnEncryptIn, roundEncryptIn_eq, roundEncryptIn_eq, spnEncrypt]

theorem spnDecryptIn_eq (c k : Byte) : spnDecryptIn o c k = spnDecrypt c k := by
  rw [spnDecryptIn, roundDecryptIn_eq, roundDecryptIn_eq, spnDecrypt]

theorem feistelEncryptIn_eq (b : Byte × Byte) {keys : List Byte} (h : keys.length ≤ 16) :
    feistelEncryptIn o b keys = feistelEncrypt b keys := by
  rw [feistelEncryptIn, feistelRoundBy_eq, roundsBy_eq_foldl _ _ _ h, feistelEncrypt]

theorem feistelDecryptIn_eq (b : Byte × Byte) {keys : List Byte} (h : keys.length ≤ 16) :
    feistelDecryptIn o b keys = feistelDecrypt b keys := by
  rw [feistelDecryptIn, feistelInvRoundBy_eq, roundsBy_eq_foldl _ _ _ (by rwa [List.length_reverse]), feistelDecrypt]

theorem encryptRounds_eq {n : Nat} (hn : n ≤ 16) (s : State) :
    encryptRounds o n s = encryptRounds Config.organisation n s := by
  rw [encryptRounds, encryptRounds, feistelEncryptIn_eq o _ (by simpa), feistelEncryptIn_organisation]

theorem decryptRounds_eq {n : Nat} (hn : n ≤ 16) (s : State) :
    decryptRounds o n s = decryptRounds Config.organisation n s := by
  rw [decryptRounds, decryptRounds, feistelDecryptIn_eq o _ (by simpa), feistelDecryptIn_organisation]

theorem advance_eq (m : LfsrShiftMode) {n : Nat} (hn : n ≤ 16) (v : Wide) (s : State) :
    advance m n v s = advance .serial n v s := by
  rw [advance, advance, lfsrAdvanceBy_eq_serial m _ hn]

theorem guarded_congr {e : Option Status} {s : State} {k k' : Outcome State Fault Refusal} (h : e = none → k = k') :
    guarded e s k = guarded e s k' := by
  cases e with
  | none => exact h rfl
  | some x => rfl

theorem execIn_eq_exec (i : Instr) {s : State} (hfkn : s.feistel.fkn.toNat ≤ 16) : execIn o i s = exec i s := by
  cases i with
  | ssub => rw [execIn, exec, execSsubIn, substituteIn_eq, execSsub_eq]
  | sisub => rw [execIn, exec, execSisubIn, invSubstituteIn_eq, execSisub_eq]
  | srenc => rw [execIn, exec, execSrencIn, roundEncryptIn_eq, execSrenc_eq]
  | srdec => rw [execIn, exec, execSrdecIn, roundDecryptIn_eq, execSrdec_eq]
  | senc => rw [execIn, exec, execSencIn, spnEncryptIn_eq, execSenc_eq]
  | sdec => rw [execIn, exec, execSdecIn, spnDecryptIn_eq, execSdec_eq]
  | frnd k => rw [execIn, exec, execFrndIn, feistelRoundBy_eq, execFrnd_eq]
  | firnd k => rw [execIn, exec, execFirndIn, feistelInvRoundBy_eq, execFirnd_eq]
  | fenc => exact encryptRounds_eq o hfkn s
  | fdec => exact decryptRounds_eq o hfkn s
  | fencn n =>
    exact guarded_congr fun h => encryptRounds_eq o (((roundCountError_eq_none _ _).mp h).trans hfkn) s
  | fdecn n =>
    exact guarded_congr fun h => decryptRounds_eq o (((roundCountError_eq_none _ _).mp h).trans hfkn) s
  | lgen n =>
    refine ite_congr rfl (fun hn => ?_) fun _ => rfl
    exact guarded_congr fun _ => advance_eq _ hn _ s
  | lenc n v =>
    refine ite_congr rfl (fun hn => ?_) fun _ => rfl
    exact guarded_congr fun _ => advance_eq _ hn _ s
  | _ => rfl

end

/-- Settles O55: the operations of every command agree with those of exec, and a step takes the same input. -/
theorem everyOrganisationRunsTheSameMachine : Obligations.EveryOrganisationRunsTheSameMachine := by
  intro o s hfkn
  refine ⟨fun i => execIn_eq_exec o i hfkn, ?_⟩
  exact runNext_related rfl rfl (fun _ => rfl) (fun i _ => execIn_eq_exec o i hfkn) (fun _ => rfl)

end Sys2Proof.Machine
end

section
/-! Stepping the LFSR (spec/43_lfsr.md R175 to R186): what the stepping commands write and answer when their checks
pass, on the register and on the bit sequence it holds; runs in pieces; LENC twice; no taps. -/

namespace Sys2Proof.Machine

/-! ### When the checks pass -/

theorem ReadyToStep.directionOf_eq {l : Lfsr} {d : Direction} (h : ReadyToStep l d) : directionOf l.ldir = some d := by
  obtain ⟨-, -, ⟨hdir, rfl⟩ | ⟨hdir, rfl⟩⟩ := h
  · rw [hdir]
    rfl
  · rw [hdir]
    rfl

theorem ReadyToStep.steppingError_eq {l : Lfsr} {d : Direction} (h : ReadyToStep l d) (n : Nat) :
    steppingError l n = none := by
  have hdir := h.directionOf_eq
  obtain ⟨hlw, htaps, -⟩ := h
  exact (steppingError_eq_none l n).mpr ⟨hlw, (strayBits_false_iff _ _).mpr htaps, .inr (by simp [hdir])⟩

/-- A stepping command that is ready writes the last state of the run and answers the data XOR the output bits. -/
theorem ReadyToStep.exec_eq {s : State} {d : Direction} (h : ReadyToStep s.lfsr d) {i : Instr} {n : Nat} {v : Wide}
    (hi : AsksForSteps i n v) :
    exec i s = reply (zext24 (v ^^^ packBits (lfsrRun s.lfsr.lw.toNat s.lfsr.lt d n s.lfsr.ls).1))
      (s.setLs (lfsrRun s.lfsr.lw.toNat s.lfsr.lt d n s.lfsr.ls).2) := by
  rw [exec_of_asksForSteps hi, h.steppingError_eq, guarded_none, advance_serial h.directionOf_eq]

theorem State.Legal.ls_zero_above {s : State} (h : s.Legal) :
    ∀ i, s.lfsr.lw.toNat ≤ i → s.lfsr.ls.getMsbD i = false := by
  obtain ⟨-, -, hz⟩ := h
  exact fun i hi => (hz i hi).2

theorem State.Legal.lw_le {s : State} (h : s.Legal) : s.lfsr.lw.toNat ≤ 16 := by
  obtain ⟨-, hlw, -⟩ := h
  exact hlw

/-- Settles O48: the run on the register is the run on the sequence it holds. -/
theorem steppingFollowsTheSequenceStep : Obligations.SteppingFollowsTheSequenceStep := by
  intro s i n v d hlegal hi hready
  obtain ⟨hlw, htaps, -⟩ := id hready
  obtain ⟨habove, hrun⟩ := lfsrRun_eq_seqRun (one_le_lw hlw) hlegal.lw_le s.lfsr.lt d htaps n s.lfsr.ls
    hlegal.ls_zero_above
  refine ⟨_, _, congrArg Prod.snd hrun, habove, ?_, hready.exec_eq hi⟩
  intro j hj
  rw [getMsbD_packBits _ hj, stateSequence, ← hrun]

theorem exec_lenc_of_hasStray {n : BitVec 5} {v : Wide} (hn : n.toNat ≤ 16) (hstray : HasStray n.toNat v)
    (s : State) : exec (.lenc n v) s = raise .invalidInput s := by
  rw [exec, execLenc_eq, if_pos hn, streamError, if_pos ((strayBits_iff _ _).mpr hstray), guarded_some]

/-- Settles O47: the data is looked at before LW, LT and LDIR. -/
theorem lencRefusesStrayData : Obligations.LencRefusesStrayData := fun s _ _ hn hstray =>
  exec_lenc_of_hasStray hn hstray s

theorem lfsrAdvanceBy_zero (l : Lfsr) : lfsrAdvanceBy .serial l 0 = (0#16, l.ls) := by
  cases hd : directionOf l.ldir with
  | none => rw [lfsrAdvanceBy_of_no_direction hd]
  | some d =>
    rw [lfsrAdvanceBy_serial hd]
    rfl

/-- No step on no data answers 0 and writes LS as it is. -/
theorem exec_of_asksForSteps_zero {i : Instr} {s : State} (hi : AsksForSteps i 0 0#16) (hlw : s.lfsr.lw ≠ 0#5)
    (htaps : ¬ HasStray s.lfsr.lw.toNat s.lfsr.lt) : exec i s = reply 0#24 s := by
  have hpass : steppingError s.lfsr 0 = none :=
    (steppingError_eq_none _ 0).mpr ⟨hlw, (strayBits_false_iff _ _).mpr htaps, .inl rfl⟩
  have hdata : zext24 (0#16 ^^^ 0#16) = 0#24 := by decide
  rw [exec_of_asksForSteps hi, hpass, guarded_none, advance, lfsrAdvanceBy_zero]
  exact congrArg (reply · s) hdata

/-- The value 0 has no stray bits. -/
theorem not_hasStray_zero (n : Nat) : ¬ HasStray n 0#16 := by
  rintro ⟨i, -, -, hbit⟩
  simp at hbit

/-- Settles O49: the check of the direction asks for at least one step. -/
theorem zeroStepsIgnoreTheDirection : Obligations.ZeroStepsIgnoreTheDirection := fun _ hlw htaps =>
  ⟨exec_of_asksForSteps_zero (.inr (.inl ⟨0#5, rfl, rfl, Nat.zero_le _, rfl⟩)) hlw htaps,
    exec_of_asksForSteps_zero (.inr (.inr ⟨0#5, rfl, rfl, Nat.zero_le _, not_hasStray_zero _⟩)) hlw htaps⟩

/-! ### When LGEN and LENC complete -/

theorem streamError_no_data (l : Lfsr) (n : Nat) : streamError l n 0#16 = steppingError l n :=
  if_neg ((strayBits_iff _ _).not.mpr (not_hasStray_zero _))

/-- LGEN is LENC of no data (R178, R179). -/
theorem exec_lgen_eq_lenc (n : BitVec 5) (s : State) : exec (.lgen n) s = exec (.lenc n 0#16) s := by
  rw [exec, exec, execLgen_eq, execLenc_eq, streamError_no_data]

theorem respond_setLs_inj {s : State} {x y : Wide} {q r : Rsp} :
    (s.setLs y).respond q = (s.setLs x).respond r ↔ y = x ∧ q = r := by
  constructor
  · intro h
    have hls : ((s.setLs y).respond q).lfsr.ls = ((s.setLs x).respond r).lfsr.ls := by rw [h]
    have hresponses : ((s.setLs y).respond q).responses = ((s.setLs x).respond r).responses := by rw [h]
    exact ⟨hls, List.singleton_inj.mp (List.append_cancel_left hresponses)⟩
  · rintro ⟨rfl, rfl⟩
    rfl

/-- An error is not an answer with status Ok. -/
theorem raise_ne_ok {e : Status} (he : e ≠ .ok) (s : State) (x : Wide) (d : Area) :
    (raise e s : Host.Outcome State Fault Refusal) ≠ .next ((s.setLs x).respond ⟨.ok, d⟩) := by
  intro h
  obtain ⟨-, hr⟩ := respond_setLs_inj.mp (Host.Outcome.next.inj h : (s.setLs s.lfsr.ls).respond _ = _)
  exact he (congrArg Rsp.status hr)

theorem streamError_ne_ok (l : Lfsr) (n : Nat) (v : Wide) : streamError l n v ≠ some .ok := by
  intro h
  exact absurd (mem_of_streamError h) (by decide)

/-- LENC completes exactly when its checks pass, with the data XOR the output bits and the last state. -/
theorem exec_lenc_eq_ok_iff (n : BitVec 5) (v : Wide) (s : State) (x : Wide) (e : Area) :
    exec (.lenc n v) s = .next ((s.setLs x).respond ⟨.ok, e⟩) ↔
      n.toNat ≤ 16 ∧ streamError s.lfsr n.toNat v = none ∧ (lfsrAdvanceBy .serial s.lfsr n.toNat).2 = x ∧
        zext24 (v ^^^ (lfsrAdvanceBy .serial s.lfsr n.toNat).1) = e := by
  rw [exec, execLenc_eq]
  by_cases hn : n.toNat ≤ 16
  case neg => simp [hn, execIllegal, raise_ne_ok (by decide : Status.illegalCommand ≠ .ok)]
  rw [if_pos hn]
  cases hcheck : streamError s.lfsr n.toNat v with
  | some err =>
    have herr : err ≠ .ok := fun h => streamError_ne_ok _ _ _ (h ▸ hcheck)
    simp [raise_ne_ok herr]
  | none => simp [hn, advance, respond_setLs_inj]

/-! ### Runs in pieces (R183) -/

theorem zext24_or_ushiftRight (x y : Wide) (k : Nat) : zext24 (x ||| (y >>> k)) = zext24 x ||| (zext24 y >>> k) := by
  simp [zext24, BitVec.setWidth_or, BitVec.setWidth_ushiftRight]

/-- A run of a + b steps answers a's bits and then b's, and leaves what b steps leave from where a left off. -/
theorem lfsrAdvanceBy_add (l : Lfsr) (a b : Nat) :
    lfsrAdvanceBy .serial l (a + b) =
      ((lfsrAdvanceBy .serial l a).1 |||
          ((lfsrAdvanceBy .serial { l with ls := (lfsrAdvanceBy .serial l a).2 } b).1 >>> a),
        (lfsrAdvanceBy .serial { l with ls := (lfsrAdvanceBy .serial l a).2 } b).2) := by
  cases hd : directionOf l.ldir with
  | none => simp [lfsrAdvanceBy, hd]
  | some d => simp [lfsrAdvanceBy, hd, lfsrRunBy, lfsrRun_add, packBits_append]

/-- Fewer steps pass the checks that more steps pass. -/
theorem steppingError_of_le {l : Lfsr} {m n : Nat} (h : steppingError l n = none) (hmn : m ≤ n) :
    steppingError l m = none := by
  obtain ⟨hlw, htaps, hdir⟩ := (steppingError_eq_none l n).mp h
  exact (steppingError_eq_none l m).mpr ⟨hlw, htaps, hdir.imp_left fun h0 => by omega⟩

theorem exec_lgen_eq_ok_iff (n : BitVec 5) (s : State) (x : Wide) (e : Area) :
    exec (.lgen n) s = .next ((s.setLs x).respond ⟨.ok, e⟩) ↔
      n.toNat ≤ 16 ∧ steppingError s.lfsr n.toNat = none ∧ (lfsrAdvanceBy .serial s.lfsr n.toNat).2 = x ∧
        zext24 (lfsrAdvanceBy .serial s.lfsr n.toNat).1 = e := by
  rw [exec_lgen_eq_lenc, exec_lenc_eq_ok_iff, streamError_no_data, BitVec.zero_xor]

/-- Settles O50: the checks look at no register the first command writes, and the run splits. -/
theorem keystreamSplitsIntoChunks : Obligations.KeystreamSplitsIntoChunks := by
  refine ⟨?_, fun _ => rfl⟩
  intro s a b c x e hc h
  obtain ⟨hle, hcheck, hx, he⟩ := (exec_lgen_eq_ok_iff c s x e).mp h
  rw [hc] at hcheck hx he
  rw [lfsrAdvanceBy_add] at hx he
  have hchecka : steppingError s.lfsr a.toNat = none := steppingError_of_le hcheck (by omega)
  have hcheckb : steppingError s.lfsr b.toNat = none := steppingError_of_le hcheck (by omega)
  refine ⟨_, _, _, (exec_lgen_eq_ok_iff a s _ _).mpr ⟨by omega, hchecka, rfl, rfl⟩,
    (exec_lgen_eq_ok_iff b (s.setLs _) x _).mpr ⟨by omega, hcheckb, hx, rfl⟩, ?_⟩
  rw [← he]
  exact zext24_or_ushiftRight _ _ _

/-! ### LENC of the result (R184) -/

/-- The output bits of n steps fill no place at or beyond n. -/
theorem strayBits_lfsrAdvanceBy {n : Nat} (hn : n ≤ 16) (l : Lfsr) :
    strayBits n (lfsrAdvanceBy .serial l n).1 = false := by
  refine (strayBits_eq_false hn _).mpr fun i hi => ?_
  cases hd : directionOf l.ldir with
  | none => simp [lfsrAdvanceBy_of_no_direction hd]
  | some d =>
    rw [lfsrAdvanceBy_serial hd]
    by_cases h16 : i < 16
    · simp [getMsbD_packBits _ h16, hi]
    · simp [BitVec.getMsbD, h16]

theorem strayBits_xor {n : Nat} (hn : n ≤ 16) {v w : Wide} (hv : strayBits n v = false) (hw : strayBits n w = false) :
    strayBits n (v ^^^ w) = false := by
  rw [strayBits_eq_false hn] at hv hw ⊢
  intro i hi
  rw [BitVec.getMsbD_xor, hv i hi, hw i hi, Bool.xor_self]

theorem setWidth_zext24 (v : Wide) : (zext24 v).setWidth 16 = v := BitVec.setWidth_setWidth_of_le v (by decide)

/-- Settles O51: the result has no stray bits either, and the same output bits cancel. -/
theorem lencUndoesItself : Obligations.LencUndoesItself := by
  intro s n v x e h
  obtain ⟨hn, hcheck, hx, rfl⟩ := (exec_lenc_eq_ok_iff n v s x e).mp h
  obtain ⟨hv, hsteps⟩ := (streamError_eq_none _ _ _).mp hcheck
  refine (exec_lenc_eq_ok_iff n _ s x _).mpr ⟨hn, ?_, hx, ?_⟩
  · rw [setWidth_zext24]
    exact (streamError_eq_none _ _ _).mpr ⟨strayBits_xor hn hv (strayBits_lfsrAdvanceBy hn _), hsteps⟩
  · rw [setWidth_zext24, BitVec.xor_assoc, BitVec.xor_self, BitVec.xor_zero]
    rfl

/-! ### No taps (R186) -/

theorem feedback_no_taps (ls : Wide) : feedback 0#16 ls = false := by
  rw [feedback, BitVec.and_zero]
  decide

/-- The places k steps have emptied: the first k going right, the last k of the w going left. -/
def Drained (w : Nat) (d : Direction) (k : Nat) (ls : Wide) : Prop :=
  ∀ i, (match d with
    | .right => i < k
    | .left => w ≤ i + k) → ls.getMsbD i = false

theorem Drained.step {w : Nat} (hw1 : 1 ≤ w) (hw : w ≤ 16) {d : Direction} {k : Nat} {ls : Wide}
    (h : Drained w d k ls) (hz : ∀ i, w ≤ i → ls.getMsbD i = false) :
    Drained w d (k + 1) (lfsrStep w 0#16 d ls).2 := by
  intro i hi
  by_cases h16 : i < 16
  case neg => simp [BitVec.getMsbD, h16]
  rw [getMsbD_lfsrStep hw1 hw _ _ _ h16 hz, feedback_no_taps]
  cases d with
  | right =>
    by_cases h0 : i = 0
    · simp [h0]
    · have hprev : ls.getMsbD (i - 1) = false := h (i - 1) (show i - 1 < k by simp at hi; omega)
      simp [hprev]
  | left =>
    have hnext : ls.getMsbD (i + 1) = false := h (i + 1) (show w ≤ i + 1 + k by simp at hi; omega)
    simp [hnext]

theorem Drained.run {w : Nat} (hw1 : 1 ≤ w) (hw : w ≤ 16) {d : Direction} {k : Nat} {ls : Wide}
    (h : Drained w d k ls) (hz : ∀ i, w ≤ i → ls.getMsbD i = false) (n : Nat) :
    Drained w d (k + n) (lfsrRun w 0#16 d n ls).2 := by
  induction n generalizing k ls with
  | zero => exact h
  | succ n ih =>
    have hrest := ih (h.step hw1 hw hz) (lfsrStep_zero_above hw1 hw _ _ _ hz)
    rwa [Nat.add_right_comm, Nat.add_assoc] at hrest

/-- After w steps without taps every place is empty. -/
theorem lfsrRun_no_taps {w : Nat} (hw1 : 1 ≤ w) (hw : w ≤ 16) (d : Direction) {ls : Wide}
    (hz : ∀ i, w ≤ i → ls.getMsbD i = false) : (lfsrRun w 0#16 d w ls).2 = 0#16 := by
  have hstart : Drained w d 0 ls := by
    intro i hi
    cases d with
    | right => exact absurd hi (Nat.not_lt_zero i)
    | left => exact hz i hi
  have hdrained := hstart.run hw1 hw hz w
  apply BitVec.eq_of_getMsbD_eq
  intro i _
  rw [BitVec.getMsbD_zero]
  by_cases hi : i < w
  · refine hdrained i ?_
    cases d with
    | right => simpa using hi
    | left => simp
  · exact lfsrRun_zero_above hw1 hw _ _ _ hz i (by omega)

theorem lfsrStep_zero_state (w : Nat) (d : Direction) : lfsrStep w 0#16 d 0#16 = (false, 0#16) := by
  cases d <;> simp [lfsrStep, feedback_no_taps, bitAt]

theorem lfsrRun_zero_state (w : Nat) (d : Direction) (n : Nat) :
    lfsrRun w 0#16 d n 0#16 = (List.replicate n false, 0#16) := by
  induction n with
  | zero => rfl
  | succ n ih => simp [lfsrRun, lfsrStep_zero_state, ih, List.replicate_succ]

theorem packBits_replicate_false (n : Nat) : packBits (List.replicate n false) = 0#16 := by
  induction n with
  | zero => rfl
  | succ n ih => simp [List.replicate_succ, packBits, ih]

/-- Settles O52: no 1 enters, so LW steps shift every 1 out, and the zero state stays and answers zeros. -/
theorem emptyTapsEmptyTheRegister : Obligations.EmptyTapsEmptyTheRegister := by
  intro s n d hlegal hready hlt
  have hw1 : 1 ≤ s.lfsr.lw.toNat := by
    obtain ⟨hlw, -⟩ := hready
    exact one_le_lw hlw
  have hpass := hready.steppingError_eq
  constructor
  · refine ⟨_, (exec_lgen_eq_ok_iff _ s 0#16 _).mpr ⟨hlegal.lw_le, hpass _, ?_, rfl⟩⟩
    rw [lfsrAdvanceBy_serial hready.directionOf_eq, hlt]
    exact lfsrRun_no_taps hw1 hlegal.lw_le d hlegal.ls_zero_above
  · intro hls hn
    refine (exec_lgen_eq_ok_iff n s s.lfsr.ls 0#24).mpr ⟨hn, hpass _, ?_, ?_⟩
    all_goals rw [lfsrAdvanceBy_serial hready.directionOf_eq, hlt, hls, lfsrRun_zero_state]
    exact congrArg zext24 (packBits_replicate_false n.toNat)

end Sys2Proof.Machine
end

section
/-! Sequences of cipher commands: Feistel decryption undoes encryption with the same keys and count (R146), and each
composite SPN command is its sequence of primitive ones (R125 to R128, R130). -/

namespace Sys2Proof.Machine

/-- FENCN and FDECN with one count, in either order: both use the same keys, so the block comes back, and the key
sequence has not changed in between. -/
theorem exec_fencn_fdecn_restores {s : State} {m : BitVec 5} (h : m.toNat ≤ s.feistel.fkn.toNat) :
    ∃ a b, exec (.fencn m) s = .next a ∧ exec (.fdecn m) a = .next b ∧ b.feistel = s.feistel ∧
      a.feistel.fkn = s.feistel.fkn := by
  refine ⟨_, _, exec_fencn_of_le h, exec_fdecn_of_le h, ?_, rfl⟩
  rw [decryptedHalves_self]
  exact congrArg (fun b : Byte × Byte => { s.feistel with fl := b.1, fr := b.2 })
    (feistelDecrypt_feistelEncrypt (blockOf s.feistel) (keysBelow s.feistel m.toNat))

theorem exec_fdecn_fencn_restores {s : State} {m : BitVec 5} (h : m.toNat ≤ s.feistel.fkn.toNat) :
    ∃ a b, exec (.fdecn m) s = .next a ∧ exec (.fencn m) a = .next b ∧ b.feistel = s.feistel ∧
      a.feistel.fkn = s.feistel.fkn := by
  refine ⟨_, _, exec_fdecn_of_le h, exec_fencn_of_le h, ?_, rfl⟩
  rw [decryptedHalves_self]
  exact congrArg (fun b : Byte × Byte => { s.feistel with fl := b.1, fr := b.2 })
    (feistelEncrypt_feistelDecrypt (blockOf s.feistel) (keysBelow s.feistel m.toNat))

/-- Settles O42: the rounds undo each other in reverse order; FENC and FDEC are FENCN and FDECN of the count FKN, which
the first command leaves as it is. -/
theorem feistelDecryptionUndoesEncryption : Obligations.FeistelDecryptionUndoesEncryption := by
  refine ⟨fun keys b => feistelDecrypt_feistelEncrypt b keys,
    fun keys n _ => ⟨fun b => feistelDecrypt_feistelEncrypt b (keys.take n),
      fun b => feistelEncrypt_feistelDecrypt b (keys.take n)⟩,
    fun _ => ⟨rfl, rfl⟩, fun s m hm => ⟨?_, ?_, ?_, ?_⟩⟩
  · obtain ⟨a, b, ha, hb, hrestored, -⟩ := exec_fencn_fdecn_restores hm
    exact ⟨a, b, ha, hb, hrestored⟩
  · obtain ⟨a, b, ha, hb, hrestored, -⟩ := exec_fdecn_fencn_restores hm
    exact ⟨a, b, ha, hb, hrestored⟩
  · obtain ⟨a, b, ha, hb, hrestored, hfkn⟩ := exec_fencn_fdecn_restores (Nat.le_refl s.feistel.fkn.toNat)
    exact ⟨a, b, (exec_fenc_eq_fencn s).trans ha, by rwa [exec_fdec_eq_fdecn, hfkn], hrestored⟩
  · obtain ⟨a, b, ha, hb, hrestored, hfkn⟩ := exec_fdecn_fencn_restores (Nat.le_refl s.feistel.fkn.toNat)
    exact ⟨a, b, (exec_fdec_eq_fdecn s).trans ha, by rwa [exec_fenc_eq_fencn, hfkn], hrestored⟩

/-- Settles O30: the functions of the rounds and of the cipher are compositions of those of the primitives, with the
round keys SKDER derives. -/
theorem compositesEqualPrimitiveSequences : Obligations.CompositesEqualPrimitiveSequences := fun s =>
  ⟨⟨_, _, _, _, writesSb_sxor s, writesSb_ssub _, writesSb_sperm _, writesSb_srenc s, rfl⟩,
    ⟨_, _, _, _, writesSb_siperm s, writesSb_sisub _, writesSb_sxor _, writesSb_srdec s, rfl⟩,
    ⟨_, _, _, _, _, exec_skder 0#1 s, writesSb_srenc _, exec_skder 1#1 _, writesSb_srenc _, writesSb_senc s, rfl⟩,
    ⟨_, _, _, _, _, exec_skder 1#1 s, writesSb_srdec _, exec_skder 0#1 _, writesSb_srdec _, writesSb_sdec s, rfl⟩⟩

end Sys2Proof.Machine
end

section
/-! The host's calls (R84, R158, R185): runs in which every command completes, what each kind of call then answers, and
the run that stops on an error (R230, assumption 17). -/

namespace Sys2Proof.Machine

/-! ### How a run ends (R84, R230) -/

/-- A host's run goes on after the one response to its first command when that is Ok, and else ends with it. -/
theorem hostRun_cons (i : Instr) (is : List Instr) (s : State) :
    ∃ t r, step { s with pending := [.command (encode i)] } = .next t ∧ t.responses = s.responses ++ [r] ∧
      hostRun (i :: is) s = if r.status = .ok then ((hostRun is t).1, r :: (hostRun is t).2) else (t, [r]) := by
  obtain ⟨t, r, hnext, -, hresponses, -⟩ :=
    step_answersOnce (s := { s with pending := [.command (encode i)] }) (rest := []) rfl
  have hlast : t.responses.getLast? = some r := by simp [hresponses]
  exact ⟨t, r, hnext, hresponses, by simp only [hostRun, hnext, hlast]⟩

/-- The responses of a run are all Ok, or end with the only one that is not. -/
theorem hostRun_responses (is : List Instr) (s : State) :
    (∀ r ∈ (hostRun is s).2, r.status = .ok) ∨
      ∃ oks r, (hostRun is s).2 = oks ++ [r] ∧ (∀ q ∈ oks, q.status = .ok) ∧ r.status ≠ .ok := by
  induction is generalizing s with
  | nil => exact .inl (List.forall_mem_nil _)
  | cons i is ih =>
    obtain ⟨t, r, -, -, hrun⟩ := hostRun_cons i is s
    by_cases hr : r.status = .ok
    · rw [hrun, if_pos hr]
      obtain hall | ⟨oks, q, hrest, hoks, hq⟩ := ih t
      · exact .inl (List.forall_mem_cons.mpr ⟨hr, hall⟩)
      · exact .inr ⟨r :: oks, q, congrArg (r :: ·) hrest, List.forall_mem_cons.mpr ⟨hr, hoks⟩, hq⟩
    · rw [hrun, if_neg hr]
      exact .inr ⟨[], r, rfl, List.forall_mem_nil _, hr⟩

/-- Settles O59: only the last response can be an error, and it is then the first error of the list. -/
theorem streamCallReportsItsError : Obligations.StreamCallReportsItsError := by
  intro is s t rs hrun
  obtain hall | ⟨oks, q, heq, hoks, hq⟩ := hostRun_responses is s
  · rw [hrun] at hall
    refine ⟨fun r hr => hall r (List.mem_of_mem_dropLast hr), fun r hr herr => ?_⟩
    exact absurd (hall r (List.mem_of_getLast? hr)) herr
  · rw [hrun] at heq
    obtain rfl : rs = oks ++ [q] := heq
    rw [List.dropLast_concat, List.getLast?_concat]
    refine ⟨hoks, ?_⟩
    rintro r ⟨⟩ herr
    exact streamResult_of_error is hoks herr

/-! ### Runs that complete -/

/-- Every command of the list completes: the run from s ends in t with the responses rs, one for each command. -/
inductive Completes : List Instr → State → State → List Rsp → Prop
  | nil (s : State) : Completes [] s s []
  | cons {i : Instr} {is : List Instr} {s u t : State} {d : Area} {rs : List Rsp} (hwf : i.wellFormed = true)
      (hexec : exec i { s with pending := [] } = reply d u) (hrest : Completes is (u.respond ⟨.ok, d⟩) t rs) :
      Completes (i :: is) s t (⟨.ok, d⟩ :: rs)

theorem Completes.length_eq {is : List Instr} {s t : State} {rs : List Rsp} (h : Completes is s t rs) :
    rs.length = is.length := by
  induction h with
  | nil => rfl
  | cons _ _ _ ih => exact congrArg (· + 1) ih

theorem Completes.status_ok {is : List Instr} {s t : State} {rs : List Rsp} (h : Completes is s t rs) :
    ∀ r ∈ rs, r.status = .ok := by
  induction h with
  | nil => exact List.forall_mem_nil _
  | cons _ _ _ ih => exact List.forall_mem_cons.mpr ⟨rfl, ih⟩

theorem Completes.append {is js : List Instr} {s t u : State} {rs qs : List Rsp} (h : Completes is s t rs)
    (h' : Completes js t u qs) : Completes (is ++ js) s u (rs ++ qs) := by
  induction h with
  | nil => exact h'
  | cons hwf hexec _ ih => exact .cons hwf hexec (ih h')

/-- The host runs such a list to its end. -/
theorem Completes.hostRun_eq {is : List Instr} {s t : State} {rs : List Rsp} (h : Completes is s t rs) :
    hostRun is s = (t, rs) := by
  induction h with
  | nil => rfl
  | @cons i is s u t d rs hwf hexec _ ih =>
    obtain ⟨t', r, hnext, hresponses, hrun⟩ := hostRun_cons i is s
    have hstep : step { s with pending := [.command (encode i)] } = reply d u :=
      (stepRunsTheDecodedCommand _ _ _ i rfl (decodeOfEncodeIsTheCommand i hwf)).trans hexec
    obtain rfl : u.respond ⟨.ok, d⟩ = t' := Host.Outcome.next.inj (hstep.symm.trans hnext)
    obtain ⟨-, hr⟩ := List.append_inj' (hresponses : u.responses ++ [_] = s.responses ++ [r]) rfl
    obtain rfl := List.singleton_inj.mp hr
    rw [hrun, if_pos rfl, ih]

/-! ### SPN.ENC and SPN.DEC -/

/-- A call of a cipher command on SB and SK: load both, then the command (R84). -/
theorem spnCall_completes {i : Instr} {cipher : Byte → Byte → Byte} (hi : WritesSb i fun r => cipher r.sb r.sk)
    (hwf : i.wellFormed = true) (s : State) (block key : Byte) :
    ∃ t q q', Completes [.sldb block, .sldk key, i] s t [q, q', ⟨.ok, zext24 (cipher block key)⟩] :=
  ⟨_, _, _, .cons rfl rfl (.cons rfl rfl (.cons hwf (hi _) (.nil _)))⟩

theorem setWidth_zext24_byte (v : Byte) : (zext24 v).setWidth 8 = v := BitVec.setWidth_setWidth_of_le v (by decide)

/-- Settles O56: the second call loads the ciphertext and the same key. -/
theorem spnCallsRoundTrip : Obligations.SpnCallsRoundTrip := by
  intro s pt key
  obtain ⟨t, q, q', henc⟩ := spnCall_completes writesSb_senc rfl s pt key
  obtain ⟨t', p, p', hdec⟩ := spnCall_completes writesSb_sdec rfl t (spnEncrypt pt key) key
  rw [spnDecrypt_spnEncrypt] at hdec
  refine ⟨_, [.sldb (spnEncrypt pt key), .sldk key, .sdec], t, _, _, t', _, rfl, henc.hostRun_eq, rfl,
    henc.length_eq, rfl, ?_, hdec.hostRun_eq, rfl⟩
  rw [setWidth_zext24_byte, expand]

/-! ### FEI.ENC and FEI.DEC -/

/-- Pushing a list of keys there is room for appends it to the key sequence (R149). -/
theorem pushes_complete (keys : List Byte) (s : State) (hroom : s.feistel.fkn.toNat + keys.length ≤ 16) :
    ∃ t rs, Completes (keys.map .fkpush) s t rs ∧
      keysBelow t.feistel t.feistel.fkn.toNat = keysBelow s.feistel s.feistel.fkn.toNat ++ keys := by
  induction keys generalizing s with
  | nil => exact ⟨s, [], .nil s, (List.append_nil _).symm⟩
  | cons k ks ih =>
    rw [List.length_cons] at hroom
    have hlt : s.feistel.fkn.toNat < 16 := by omega
    have hpush : exec (.fkpush k) { s with pending := [] } = replyBlock (State.pushKey { s with pending := [] } k) :=
      exec_fkpush_of_lt k hlt
    have hcount : ((s.pushKey k).feistel.fkn.toNat + ks.length) ≤ 16 := by
      rw [toNat_fkn_pushKey k hlt]
      omega
    obtain ⟨t, rs, hrun, hkeys⟩ := ih ((State.pushKey { s with pending := [] } k).respond
      ⟨.ok, zext24 (joinHalves s.feistel.fl s.feistel.fr)⟩) hcount
    refine ⟨t, _, .cons rfl hpush hrun, hkeys.trans ?_⟩
    refine (congrArg (· ++ ks) (keysBelow_pushKey k hlt)).trans ?_
    exact List.append_assoc _ _ _

/-- A command that writes the block with a cipher over the keys below FKN. -/
def WritesCipherBlock (i : Instr) (cipher : Byte × Byte → List Byte → Byte × Byte) : Prop :=
  ∀ s : State, exec i s =
    replyBlock (s.setBlock (cipher (blockOf s.feistel) (keysBelow s.feistel s.feistel.fkn.toNat)))

theorem writesCipherBlock_fenc : WritesCipherBlock .fenc feistelEncrypt := execFenc_eq

theorem writesCipherBlock_fdec : WritesCipherBlock .fdec feistelDecrypt := execFdec_eq

/-- What a cipher command answers for a block and a key list. -/
def cipherAnswer (cipher : Byte × Byte → List Byte → Byte × Byte) (blk : Wide) (keys : List Byte) : Wide :=
  joinHalves (cipher (leftHalf blk, rightHalf blk) keys).1 (cipher (leftHalf blk, rightHalf blk) keys).2

section
variable {i : Instr} {cipher : Byte × Byte → List Byte → Byte × Byte}

theorem loadAndCipher_completes (hi : WritesCipherBlock i cipher) (hwf : i.wellFormed = true) (s : State)
    (blk : Wide) : ∃ t r, Completes [.fldb blk, i] s t
      [r, ⟨.ok, zext24 (cipherAnswer cipher blk (keysBelow s.feistel s.feistel.fkn.toNat))⟩] :=
  ⟨_, _, .cons rfl rfl (.cons hwf (hi _) (.nil _))⟩

/-- A call of a Feistel cipher command: empty the sequence, push the keys, load the block, then the command (R84). -/
theorem feistelCall_completes (hi : WritesCipherBlock i cipher) (hwf : i.wellFormed = true) (s : State) (blk : Wide)
    {keys : List Byte} (hkeys : keys.length ≤ 16) :
    ∃ t rs, Completes ([.fkclr] ++ keys.map .fkpush ++ [.fldb blk, i]) s t rs ∧
      rs.getLast? = some ⟨.ok, zext24 (cipherAnswer cipher blk keys)⟩ := by
  obtain ⟨t, rs, hpushes, hloaded⟩ := pushes_complete keys ((State.clearKeys { s with pending := [] }).respond
    ⟨.ok, zext24 (joinHalves s.feistel.fl s.feistel.fr)⟩) (by simpa using hkeys)
  have hsequence : keysBelow t.feistel t.feistel.fkn.toNat = keys := hloaded
  obtain ⟨u, r, hcipher⟩ := loadAndCipher_completes hi hwf t blk
  rw [hsequence] at hcipher
  exact ⟨u, _, .cons rfl rfl (hpushes.append hcipher), by simp [List.getLast?_cons]⟩

end

theorem leftHalf_joinHalves (l r : Byte) : leftHalf (joinHalves l r) = l := extractLsb'_append_high l r

theorem rightHalf_joinHalves (l r : Byte) : rightHalf (joinHalves l r) = r := extractLsb'_append_low l r

/-- Decrypting the answer of the encryption with the same keys answers the block. -/
theorem cipherAnswer_decrypt_encrypt (blk : Wide) (keys : List Byte) :
    cipherAnswer feistelDecrypt (cipherAnswer feistelEncrypt blk keys) keys = blk := by
  rw [cipherAnswer, cipherAnswer, leftHalf_joinHalves, rightHalf_joinHalves, Prod.mk.eta,
    feistelDecrypt_feistelEncrypt, joinHalves_leftHalf_rightHalf]

/-- Settles O57: each call builds the key sequence anew, so both ciphers use the same list. -/
theorem feistelCallsRoundTrip : Obligations.FeistelCallsRoundTrip := by
  intro s blk keys hkeys
  obtain ⟨t, rs, henc, hct⟩ := feistelCall_completes writesCipherBlock_fenc rfl s blk hkeys
  obtain ⟨t', rs', hdec, hpt⟩ :=
    feistelCall_completes writesCipherBlock_fdec rfl t (cipherAnswer feistelEncrypt blk keys) hkeys
  rw [cipherAnswer_decrypt_encrypt] at hpt
  refine ⟨_, _, t, rs, _, t', rs', if_pos hkeys, henc.hostRun_eq, hct, henc.length_eq, ?_, hdec.hostRun_eq, hpt⟩
  rw [setWidth_zext24]
  exact if_pos hkeys

/-! ### LFSR.ENC and LFSR.DEC -/

/-- The elementwise XOR of two sequences. -/
def xorBits (as bs : List Bool) : List Bool := List.zipWith (· ^^ ·) as bs

theorem length_xorBits {as bs : List Bool} (h : as.length = bs.length) : (xorBits as bs).length = as.length := by
  rw [xorBits, List.length_zipWith, h, min_self]

theorem xorBits_append {as bs : List Bool} (h : as.length = bs.length) (as' bs' : List Bool) :
    xorBits (as ++ as') (bs ++ bs') = xorBits as bs ++ xorBits as' bs' := List.zipWith_append h

theorem xorBits_xorBits {as bs : List Bool} (h : as.length = bs.length) : xorBits (xorBits as bs) bs = as := by
  apply List.ext_getElem
  · rw [length_xorBits ((length_xorBits h).trans h), length_xorBits h]
  · intro k _ _
    simp [xorBits]

/-- The elements of an XOR of packed sequences of one length. -/
theorem unpackBits_packBits_xor {as bs : List Bool} (h : as.length = bs.length) (h16 : as.length ≤ 16) :
    unpackBits as.length (packBits as ^^^ packBits bs) = xorBits as bs := by
  apply List.ext_getElem
  · rw [length_unpackBits, length_xorBits h]
  · intro k hk hk'
    have hka : k < as.length := by simpa [length_unpackBits] using hk
    have hkb : k < bs.length := h ▸ hka
    simp [unpackBits, xorBits, getMsbD_packBits _ (show k < 16 by omega), hka, hkb]

theorem not_hasStray_packBits {bs : List Bool} : ¬ HasStray bs.length (packBits bs) := by
  rintro ⟨i, hi, h16, hbit⟩
  rw [getMsbD_packBits bs h16] at hbit
  simp [hi] at hbit

theorem toNat_ofNat_length {p : List Bool} (h : p.length ≤ 16) : (BitVec.ofNat 5 p.length).toNat = p.length := by
  rw [BitVec.toNat_ofNat]
  exact Nat.mod_eq_of_lt (by omega)

/-- LENC of a piece asks for as many steps as the piece has elements. -/
theorem asksForSteps_lencPiece {p : List Bool} (h : p.length ≤ 16) :
    AsksForSteps (lencPiece p) p.length (packBits p) :=
  .inr (.inr ⟨_, rfl, toNat_ofNat_length h, h, not_hasStray_packBits⟩)

/-- The bits a run of the stream from LS in direction d outputs, and the state it leaves. -/
def streamRun (l : Lfsr) (d : Direction) (n : Nat) : List Bool × Wide := lfsrRun l.lw.toNat l.lt d n l.ls

theorem length_streamRun (l : Lfsr) (d : Direction) (n : Nat) : (streamRun l d n).1.length = n :=
  length_lfsrRun _ _ _ _ _

theorem streamRun_add (l : Lfsr) (d : Direction) (a b : Nat) :
    streamRun l d (a + b) =
      ((streamRun l d a).1 ++ (streamRun { l with ls := (streamRun l d a).2 } d b).1,
        (streamRun { l with ls := (streamRun l d a).2 } d b).2) := lfsrRun_add _ _ _ a b _

/-- The run from s in direction d carries the bits through the stream: it completes, its responses carry the bits XOR
the stream's, and it leaves LS where the stream is then. -/
def Streams (is : List Instr) (d : Direction) (bits : List Bool) (s : State) : Prop :=
  ∃ t rs, Completes is s t rs ∧ streamConcat is rs = xorBits bits (streamRun s.lfsr d bits.length).1 ∧
    t.lfsr = { s.lfsr with ls := (streamRun s.lfsr d bits.length).2 }

theorem streamBits_lencPiece {p : List Bool} (h : p.length ≤ 16) (v : Wide) :
    streamBits (lencPiece p) ⟨.ok, zext24 v⟩ = unpackBits p.length v := by
  rw [lencPiece, streamBits, toNat_ofNat_length h, setWidth_zext24]

theorem streamConcat_append {is js : List Instr} {rs qs : List Rsp} (h : is.length = rs.length) :
    streamConcat (is ++ js) (rs ++ qs) = streamConcat is rs ++ streamConcat js qs := by
  rw [streamConcat, List.zipWith_append h, List.flatten_append]
  rfl

theorem streams_nil (d : Direction) (s : State) : Streams [] d [] s := ⟨s, [], .nil s, rfl, rfl⟩

/-- One piece: LENC of at most 16 bits. -/
theorem streams_lencPiece {s : State} {d : Direction} (hready : ReadyToStep s.lfsr d) {p : List Bool}
    (h : p.length ≤ 16) : Streams [lencPiece p] d p s := by
  have hwf : (lencPiece p).wellFormed = true := by
    rw [lencPiece, Instr.wellFormed, toNat_ofNat_length h]
    exact decide_eq_true h
  have hexec := ReadyToStep.exec_eq (s := { s with pending := [] }) hready (asksForSteps_lencPiece h)
  refine ⟨_, _, .cons hwf hexec (.nil _), ?_, rfl⟩
  rw [streamConcat_cons, streamBits_lencPiece h]
  refine (List.append_nil _).trans (unpackBits_packBits_xor (length_streamRun s.lfsr d p.length).symm h)

/-- Runs one after the other carry their bits one after the other. -/
theorem Streams.append {is js : List Instr} {d : Direction} {as bs : List Bool} {s : State} (his : Streams is d as s)
    (hjs : ∀ t : State, t.lfsr = { s.lfsr with ls := (streamRun s.lfsr d as.length).2 } → Streams js d bs t) :
    Streams (is ++ js) d (as ++ bs) s := by
  obtain ⟨t, rs, hrun, hbits, hls⟩ := his
  obtain ⟨u, qs, hrun', hbits', hls'⟩ := hjs t hls
  refine ⟨u, _, hrun.append hrun', ?_, ?_⟩
  · rw [streamConcat_append hrun.length_eq.symm, hbits, hbits', hls, List.length_append, streamRun_add,
      xorBits_append (length_streamRun _ _ _).symm]
  · rw [hls', hls, List.length_append, streamRun_add]

theorem streams_pieces {d : Direction} (fuel : Nat) {bits : List Bool} (hfuel : bits.length ≤ fuel) {s : State}
    (hready : ReadyToStep s.lfsr d) : Streams ((pieces fuel bits).map lencPiece) d bits s := by
  induction fuel generalizing bits s with
  | zero =>
    obtain rfl := List.length_eq_zero_iff.mp (Nat.le_zero.mp hfuel)
    exact streams_nil d s
  | succ fuel ih =>
    cases bits with
    | nil => exact streams_nil d s
    | cons b bs =>
      have hrest : ((b :: bs).drop 16).length ≤ fuel := by
        rw [List.length_drop]
        omega
      have hsplit := (streams_lencPiece hready (p := (b :: bs).take 16) (List.length_take_le _ _)).append
        fun t ht => ih hrest (ht ▸ hready : ReadyToStep t.lfsr d)
      rwa [List.take_append_drop] at hsplit

theorem streams_lencMessage {d : Direction} (bits : List Bool) {s : State} (hready : ReadyToStep s.lfsr d) :
    Streams (lencMessage bits) d bits s := by
  cases bits with
  | nil => exact streams_lencPiece hready (p := []) (Nat.zero_le _)
  | cons b bs => exact streams_pieces _ (Nat.le_refl _) hready

/-- A stream call of a message: restart from LSEED, then the pieces; only LS is left changed (R84, R184). -/
theorem lfsrCall_completes {s : State} {d : Direction} (hready : ReadyToStep s.lfsr d) (bits : List Bool) :
    ∃ t rs x, Completes (.lrst :: lencMessage bits) s t rs ∧
      streamConcat (.lrst :: lencMessage bits) rs =
        xorBits bits (streamRun { s.lfsr with ls := s.lfsr.lseed } d bits.length).1 ∧
      t.lfsr = { s.lfsr with ls := x } := by
  obtain ⟨t, rs, hrun, hbits, hls⟩ :=
    streams_lencMessage bits (s := (State.setLs { s with pending := [] } s.lfsr.lseed).respond
      ⟨.ok, zext24 s.lfsr.lseed⟩) hready
  exact ⟨t, _, _, .cons rfl rfl hrun, hbits, hls⟩

/-- Settles O58: both calls restart from LSEED, so the bits XORed are the same. -/
theorem lfsrCallsRoundTrip : Obligations.LfsrCallsRoundTrip := by
  intro s d pt _ hready
  obtain ⟨t, rs, x, henc, hct, hls⟩ := lfsrCall_completes hready pt
  have hlength := (length_streamRun { s.lfsr with ls := s.lfsr.lseed } d pt.length).symm
  obtain ⟨t', rs', -, hdec, hpt, -⟩ := lfsrCall_completes (s := t) (hls ▸ hready : ReadyToStep t.lfsr d)
    (xorBits pt (streamRun { s.lfsr with ls := s.lfsr.lseed } d pt.length).1)
  rw [hls, length_xorBits hlength, xorBits_xorBits hlength] at hpt
  refine ⟨_, _, t, rs, _, t', rs', rfl, henc.hostRun_eq, ?_, length_xorBits hlength, rfl, hdec.hostRun_eq, ?_⟩
  · rw [streamResult_of_ok _ henc.status_ok, hct]
  · rw [streamResult_of_ok _ hdec.status_ok, hpt]

end Sys2Proof.Machine
end
